-- ==== Sys2Proof/Word.lean ====
section
/-! DEFINITION. The word types of the BitStore block (00_scope.md R5, R6, R8; 30_encoding.md R60). -/

namespace Sys2Proof

/-- An 8-bit unsigned byte of a byte sequence (00_scope.md R8). -/
abbrev Byte := BitVec 8

/-- A 64-bit storage word, operand, seed or result (00_scope.md R5: WORD_BITS = SEED_BITS = 64). -/
abbrev Word := BitVec 64

/-- A 32-bit command word CW (30_encoding.md R60). -/
abbrev CmdWord := BitVec 32

/-- A 4-bit store slot field of a command word, 0 to 15 (30_encoding.md R60). -/
abbrev Slot := BitVec 4

end Sys2Proof
end

