-- ==== Sys2Proof/Syntax.lean ====
section
/-! DEFINITION. The commands of the block: one constructor per row of the opcode table (30_encoding.md R63). The
operands A and IN are fields of the command record (10_state.md R28), not of the command word, so a constructor holds
the slot fields its format uses and nothing else. -/

namespace Sys2Proof

/-- The three formats of a command word (30_encoding.md R62). -/
inductive Format where
  /-- one store: SD used, SS must be 0 -/
  | oneStore
  /-- two stores: SD and SS used -/
  | twoStores
  /-- no store: SD and SS must be 0 -/
  | noStore
  deriving DecidableEq, Repr

/-- A command of the block (30_encoding.md R63), with the slots its format names. -/
inductive Instr where
  /-- NEW sd, A: construct a store of A bits (R101) -/
  | new (sd : Slot)
  /-- SIZE sd: bit capacity (R104) -/
  | size (sd : Slot)
  /-- SETBIT sd, A: set bit A (R107) -/
  | setbit (sd : Slot)
  /-- GETBIT sd, A: read bit A (R110) -/
  | getbit (sd : Slot)
  /-- COUNT sd: population count (R113) -/
  | count (sd : Slot)
  /-- EQUALS sd, ss: compare two stores (R116) -/
  | equals (sd ss : Slot)
  /-- COPY sd, ss: copy store ss into slot sd (R119) -/
  | copy (sd ss : Slot)
  /-- ENCODE sd: emit the serialized image (R143) -/
  | encode (sd : Slot)
  /-- DECODE sd, IN: load a store from an image (R146) -/
  | decode (sd : Slot)
  /-- MUX IN: split a digest into seeds (R161) -/
  | mux
  /-- INDEX sd, A: seed to index (R166) -/
  | index (sd : Slot)
  /-- SETHASH sd, A: set the bit seed A selects (R172) -/
  | sethash (sd : Slot)
  /-- GETHASH sd, A: test the bit seed A selects (R175) -/
  | gethash (sd : Slot)
  deriving DecidableEq, Repr

end Sys2Proof
end

