-- ==== Sys2Proof/Decode.lean ====
section
/-! DEFINITION. The decoder and the encoder of command words (30_encoding.md R60 to R64). The decoder makes the two
checks of R64 that depend on the word alone. The third, BAD_STORE, depends on N_STORES and is made by the one
operation through which every meaning reaches a slot (Machine/Ops.lean, `State.withStore`). -/

namespace Sys2Proof

/-- Why a command word is rejected before its slots are looked at (30_encoding.md R64, R67). -/
inductive Reject where
  /-- CW[7:0] is 0x00 or 0x0E to 0xFF -/
  | illegalOpcode
  /-- RSV, or a slot field the format does not use, is not 0 -/
  | reservedField
  deriving DecidableEq, Repr

/-- OP, bits 7:0 (R60). -/
def cwOp (cw : CmdWord) : BitVec 8 := cw.extractLsb' 0 8

/-- SD, bits 11:8 (R60). -/
def cwSd (cw : CmdWord) : Slot := cw.extractLsb' 8 4

/-- SS, bits 15:12 (R60). -/
def cwSs (cw : CmdWord) : Slot := cw.extractLsb' 12 4

/-- RSV, bits 31:16 (R60). -/
def cwRsv (cw : CmdWord) : BitVec 16 := cw.extractLsb' 16 16

/-- The opcode map: the format and the command of an opcode with given slot fields, none where the opcode is illegal
(30_encoding.md R63, R67, R68). -/
def opcodeMap (op : BitVec 8) (sd ss : Slot) : Option (Format × Instr) :=
  match op.toNat with
  | 0x01 => some (.oneStore, .new sd)
  | 0x02 => some (.oneStore, .size sd)
  | 0x03 => some (.oneStore, .setbit sd)
  | 0x04 => some (.oneStore, .getbit sd)
  | 0x05 => some (.oneStore, .count sd)
  | 0x06 => some (.twoStores, .equals sd ss)
  | 0x07 => some (.twoStores, .copy sd ss)
  | 0x08 => some (.oneStore, .encode sd)
  | 0x09 => some (.oneStore, .decode sd)
  | 0x0A => some (.noStore, .mux)
  | 0x0B => some (.oneStore, .index sd)
  | 0x0C => some (.oneStore, .sethash sd)
  | 0x0D => some (.oneStore, .gethash sd)
  | _ => none

/-- Whether every slot field that the format leaves unused is 0 (30_encoding.md R62, R64). -/
def Format.unusedZero (f : Format) (sd ss : Slot) : Bool :=
  match f with
  | .oneStore => ss == 0
  | .twoStores => true
  | .noStore => sd == 0 && ss == 0

/-- Decoding of a command word, total, in the order of 30_encoding.md R64: first the opcode, then the reserved
fields. -/
def decode (cw : CmdWord) : Except Reject Instr :=
  match opcodeMap (cwOp cw) (cwSd cw) (cwSs cw) with
  | none => .error .illegalOpcode
  | some (f, i) =>
    if cwRsv cw ≠ 0 then .error .reservedField
    else if f.unusedZero (cwSd cw) (cwSs cw) then .ok i
    else .error .reservedField

/-- Lay out a command word: RSV = 0, SS, SD, OP from bit 31 down to bit 0 (30_encoding.md R60). -/
def layout (op : BitVec 8) (sd ss : Slot) : CmdWord := (0 : BitVec 16) ++ ss ++ sd ++ op

/-- The command word of a command (30_encoding.md R62, R63, R70): a slot field the format does not use is 0. -/
def encode : Instr → CmdWord
  | .new sd => layout 0x01 sd 0
  | .size sd => layout 0x02 sd 0
  | .setbit sd => layout 0x03 sd 0
  | .getbit sd => layout 0x04 sd 0
  | .count sd => layout 0x05 sd 0
  | .equals sd ss => layout 0x06 sd ss
  | .copy sd ss => layout 0x07 sd ss
  | .encode sd => layout 0x08 sd 0
  | .decode sd => layout 0x09 sd 0
  | .mux => layout 0x0A 0 0
  | .index sd => layout 0x0B sd 0
  | .sethash sd => layout 0x0C sd 0
  | .gethash sd => layout 0x0D sd 0

/-- The command word that an instruction of `nbits` bits with value `w` stands for, none where it does not fit the 32
bits of a CW (30_encoding.md R69). A CW is presented as a value and has no byte order (20_memory.md R41). -/
def tableWord (nbits w : Nat) : Option CmdWord :=
  if w % 2 ^ nbits < 2 ^ 32 then some (BitVec.ofNat 32 (w % 2 ^ nbits)) else none

/-- What the decoder reads from an instruction of the opcode table (log 16). -/
def decodeTableWord (nbits w : Nat) : Option Instr :=
  match tableWord nbits w with
  | none => none
  | some cw => (decode cw).toOption

end Sys2Proof
end

