-- ==== Sys2Proof/Config.lean ====
section
/-! DEFINITION. What a build of the block fixes (00_scope.md R5), and the free values. -/

namespace Sys2Proof

/-- The parameters of a build of the block (00_scope.md R5). A state carries them as a constant field, so a
statement about every state is a statement about every build. WORD_BITS and SEED_BITS are fixed at 64 by the spec
and stand in the word types. -/
structure Config where
  /-- N_STORES: number of store slots. -/
  nStores : Nat
  /-- MAX_WORDS: largest word count a store may have. -/
  maxWords : Nat
  /-- MUX_MAX_BYTES: longest digest MUX accepts, in bytes. -/
  muxMaxBytes : Nat
  deriving DecidableEq, Repr

/-- The legal values of the parameters (00_scope.md R5). -/
abbrev Config.legal (c : Config) : Prop :=
  1 ≤ c.nStores ∧ c.nStores ≤ 16 ∧ 1 ≤ c.maxWords ∧ c.maxWords ≤ 2 ^ 58 - 1 ∧ 8 ≤ c.muxMaxBytes

/-- The build that `State.reset` takes: the spec's default N_STORES = 2, its MUX_MAX_BYTES = 64, and
MAX_WORDS = 4, which the spec leaves OPEN and its test vectors set (00_scope.md R5). DESIGN CHOICE, log 1. -/
def Config.standard : Config := { nStores := 2, maxWords := 4, muxMaxBytes := 64 }

/-- FREE VALUE: which of the moves open to the machine happens at its `n`-th choice. The arbiter's order among hosts
is left open (10_state.md R32, 20_memory.md R49), and so is when a host's or the reset line's action lands between two
commands. Nothing constrains this function (log 4). -/
opaque Config.arbiterChoice : Nat → Nat

/-- FREE VALUE: what R of MUX is where the number of seeds does not fit its 64 bits, which only a build with
MUX_MAX_BYTES of 2^67 or more admits (00_scope.md R5, 42_index_mux.md R161). The spec states no result there. Nothing
constrains this function (log 20). -/
opaque Config.seedCountBeyondPort : Nat → Word

end Sys2Proof
end

