-- ==== Sys2Proof/Machine/State.lean ====
section
/-! DEFINITION. The state of the block as plain data, the reasons a step can stop, and the state after reset
(10_state.md; 70_reset_and_hazards.md R230). -/

namespace Sys2Proof.Machine

/-- A store slot's contents (10_state.md R22): the words, from word 0. The word count wc is the length of the list;
words at wc or above are not state (R24), so the list has none. -/
structure Store where
  words : List Word
  deriving DecidableEq, Repr

/-- The command record a host presents (10_state.md R28). -/
structure Command where
  /-- CW -/
  cw : CmdWord
  /-- A -/
  a : Word
  /-- IN -/
  input : List Byte
  deriving DecidableEq, Repr

/-- The response record (10_state.md R29). -/
structure Response where
  /-- R -/
  r : Word
  /-- OUTB -/
  outb : List Byte
  /-- OUTS -/
  outs : List Word
  /-- ERR -/
  err : BitVec 8
  deriving DecidableEq, Repr

/-- The error codes by name (60_exceptions.md R201); `ErrCode.code` gives their numbers. -/
inductive ErrCode where
  | ok
  | illegalOpcode
  | reservedField
  | badStore
  | capacity
  | getOutOfRange
  | digestTooLong
  deriving DecidableEq, Repr

/-- A command that a host has issued and the block has not yet performed (10_state.md R32). -/
structure Request where
  host : Nat
  cmd : Command
  deriving DecidableEq, Repr

/-- A response that its host has not yet accepted (10_state.md R20, R29). -/
structure PendingResponse where
  host : Nat
  resp : Response
  deriving DecidableEq, Repr

/-- What the world outside does to the block. -/
inductive Input where
  /-- a host issues a command (10_state.md R32) -/
  | issue (host : Nat) (cmd : Command)
  /-- a host accepts the response that waits for it (10_state.md R20) -/
  | accept (host : Nat)
  /-- a host reads STATUS, which it may do at any time (10_state.md R30) -/
  | readStatus (host : Nat)
  /-- the reset input is asserted (70_reset_and_hazards.md R230) -/
  | reset
  deriving DecidableEq, Repr

/-- What a host has received from the block. -/
inductive Delivery where
  /-- a response to its command (10_state.md R29) -/
  | response (host : Nat) (resp : Response)
  /-- the value of STATUS that it read (10_state.md R30) -/
  | status (host : Nat) (value : BitVec 32)
  deriving DecidableEq, Repr

/-- The machine's state. `cfg` never changes. `inputs`, `delivered` and `choices` are the model's own fields (logs 4,
5, 8); the others are the spec's (10_state.md R34). -/
structure State where
  /-- the build's parameters (00_scope.md R5) -/
  cfg : Config
  /-- the store slots, slot 0 first (10_state.md R21, R22) -/
  stores : List Store
  /-- STATUS (10_state.md R30), read through `State.readStatus` -/
  status : BitVec 32
  /-- the command record of the command being performed, or last performed (10_state.md R27, R28) -/
  cmd : Command
  /-- the response record of that command (10_state.md R27, R29) -/
  resp : Response
  /-- the outstanding commands (10_state.md R32, R33) -/
  outstanding : List Request
  /-- the pending responses (10_state.md R34) -/
  responses : List PendingResponse
  /-- what hosts have received, oldest first (70_reset_and_hazards.md R238) -/
  delivered : List Delivery
  /-- what the outside world will still do, next first -/
  inputs : List Input
  /-- how many choices have been made: the argument of `Config.arbiterChoice` -/
  choices : Nat
  deriving DecidableEq, Repr

/-- Why the machine stops. Neither reason is reached from a state that meets the store invariant (10_state.md R21,
R23): the spec gives no meaning to the states in which they are raised (log 9). -/
inductive Fault where
  /-- raised by `State.withStore`: a slot below N_STORES that the slot list does not hold. Safe: the model stops where
  the spec has no such state (10_state.md R21). -/
  | slotMissing
  /-- raised by `State.withIndex`: a seed reduced by the size of a store of no words. Safe: the remainder is defined
  only for a positive divisor (00_scope.md R7), and the spec has no such store (10_state.md R23). -/
  | zeroModulus
  deriving DecidableEq, Repr

/-- Why an instruction has no meaning. -/
inductive Refusal where
  /-- raised by `exec` alone, for an instruction that has no meaning yet; at present by no arm. Safe: the model
  stops. -/
  | notModelled (mnemonic : String)
  deriving DecidableEq, Repr

/-- What performing something answers. -/
abbrev StepResult := Host.Outcome State Fault Refusal

/-- A store of one zero word: what `new(0)` makes (40_bitstore.md R101), and every slot after reset (R34). -/
def Store.oneZero : Store := { words := [0] }

/-- The command record when no command is present. DESIGN CHOICE, log 3. -/
def Command.none : Command := { cw := 0, a := 0, input := [] }

/-- The response record when there is no response. DESIGN CHOICE, log 3. -/
def Response.none : Response := { r := 0, outb := [], outs := [], err := 0 }

/-- A build of the block right after reset (10_state.md R34, 70_reset_and_hazards.md R230). -/
def State.resetWith (c : Config) : State where
  cfg := c
  stores := List.replicate c.nStores Store.oneZero
  status := 0
  cmd := Command.none
  resp := Response.none
  outstanding := []
  responses := []
  delivered := []
  inputs := []
  choices := 0

/-- The machine right after reset, in the standard build (log 1). -/
def State.reset : State := State.resetWith Config.standard

end Sys2Proof.Machine
end

