-- ==== Sys2Proof/Machine/Flags.lean ====
section
/-! DEFINITION. Error codes and the STATUS register (10_state.md R30, R31; 60_exceptions.md R201). -/

namespace Sys2Proof.Machine

/-- The number of an error code (60_exceptions.md R201). -/
def ErrCode.code : ErrCode → BitVec 8
  | .ok => 0
  | .illegalOpcode => 1
  | .reservedField => 2
  | .badStore => 3
  | .capacity => 4
  | .getOutOfRange => 5
  | .digestTooLong => 6

/-- The error of a rejected command word (30_encoding.md R64). -/
def rejectError : Reject → ErrCode
  | .illegalOpcode => .illegalOpcode
  | .reservedField => .reservedField

/-- The STATUS bits that are not hardwired: LAST_ERR 7:0 and the sticky bits 13:8 (10_state.md R30). -/
def statusImplemented : BitVec 32 := 0x00003FFF

/-- The sticky bit of an error code, bit 7 + e; none for OK (10_state.md R30). -/
def stickyMask (e : ErrCode) : BitVec 32 :=
  if e = .ok then 0 else (1 : BitVec 32) <<< (7 + e.code.toNat)

/-- STATUS at the end of a command with error code e: `STATUS[7:0] <- e; if e ≠ 0 then STATUS[7 + e] <- 1`
(10_state.md R30). -/
def statusAfter (st : BitVec 32) (e : ErrCode) : BitVec 32 :=
  (st &&& 0xFFFFFF00) ||| e.code.setWidth 32 ||| stickyMask e

/-- STATUS.LAST_ERR (10_state.md R30). -/
def lastErr (st : BitVec 32) : BitVec 8 := st.extractLsb' 0 8

/-- STATUS as a host reads it: bits 31:14 are hardwired 0 (10_state.md R30). -/
def State.readStatus (s : State) : BitVec 32 := s.status &&& statusImplemented

end Sys2Proof.Machine
end

