-- ==== Sys2Proof/Machine/Operands.lean ====
section
/-! DEFINITION. The operand forms and the number functions of the commands: byte order, parsing of byte sequences,
bit placement, population count and rounding to words. All arithmetic is exact over the naturals (00_scope.md R7). -/

namespace Sys2Proof.Machine

/-- The number a byte list stands for, its first byte least significant (00_scope.md R8). -/
def leNat : List Byte → Nat
  | [] => 0
  | b :: bs => b.toNat + 256 * leNat bs

/-- LE64: a list of 8 bytes as one word (00_scope.md R8). -/
def le64 (bytes : List Byte) : Word := BitVec.ofNat 64 (leNat bytes)

/-- LE8: byte j is bits 8j+7 : 8j, for j = 0 to 7 (00_scope.md R8). -/
def le8 (w : Word) : List Byte := (List.range 8).map fun j => w.extractLsb' (8 * j) 8

/-- parse: word k is LE64 of bytes 8k to 8k+7, for each complete chunk; the trailing bytes take no part
(41_serialization.md R142, 42_index_mux.md R161). -/
def parseWords (bytes : List Byte) : List Word :=
  (List.range (bytes.length / 8)).map fun k => le64 ((bytes.drop (8 * k)).take 8)

/-- image: LE8 of each word, in word order (41_serialization.md R141). -/
def imageOf (words : List Word) : List Byte := words.flatMap le8

/-- The number of bits of a word equal to 1 (00_scope.md R7). -/
def popcount (w : Word) : Nat := (List.range 64).countP fun b => w.getLsbD b

/-- The word of a bit index (20_memory.md R40). -/
def wordIndex (i : Nat) : Nat := i / 64

/-- The offset of a bit index in its word; offset 0 is the least significant bit (20_memory.md R40). -/
def bitOffset (i : Nat) : Nat := i % 64

/-- The word with bit b set and no other (00_scope.md R7). -/
def oneBit (b : Nat) : Word := (1 : Word) <<< b

/-- Bits to words: the ceiling of bits / 64, and at least one word (40_bitstore.md R101). -/
def wordsForBits (bits : Nat) : Nat :=
  let n := bits / 64
  let n := if bits % 64 ≠ 0 then n + 1 else n
  if n = 0 then 1 else n

/-- A Boolean result in R: 1 for true, 0 for false (10_state.md R31). -/
def boolWord (b : Bool) : Word := if b then 1 else 0

/-- A natural number as a 64-bit port value (00_scope.md R7; it fits in every state the block reaches). -/
def toPort (n : Nat) : Word := BitVec.ofNat 64 n

end Sys2Proof.Machine
end

