-- ==== Sys2Proof/WellFormed.lean ====
section
/-! DEFINITION. Which commands a build accepts: every slot field the command uses names a slot the build has
(30_encoding.md R61). Any other command of the table ends with BAD_STORE (30_encoding.md R64). -/

namespace Sys2Proof

/-- The slots a command names, SD first (30_encoding.md R61, R62). -/
def Instr.slots : Instr → List Slot
  | .new sd => [sd]
  | .size sd => [sd]
  | .setbit sd => [sd]
  | .getbit sd => [sd]
  | .count sd => [sd]
  | .equals sd ss => [sd, ss]
  | .copy sd ss => [sd, ss]
  | .encode sd => [sd]
  | .decode sd => [sd]
  | .mux => []
  | .index sd => [sd]
  | .sethash sd => [sd]
  | .gethash sd => [sd]

/-- A slot number is legal when it is below N_STORES (30_encoding.md R61). -/
def Config.slotLegal (c : Config) (slot : Slot) : Bool := decide (slot.toNat < c.nStores)

/-- A command is well formed for a build when every slot it names is legal (30_encoding.md R61). -/
def Instr.wf (c : Config) (i : Instr) : Bool := i.slots.all c.slotLegal

end Sys2Proof
end

