-- ==== Sys2Proof/Machine/Ops.lean ====
section
/-! DEFINITION. The operations the commands share: store access, the end of a command, and an error. -/

namespace Sys2Proof.Machine

/-- wc (10_state.md R22). -/
def Store.wc (st : Store) : Nat := st.words.length

/-- size in bits: wc × 64 (10_state.md R22). -/
def Store.size (st : Store) : Nat := st.wc * 64

/-- W[k], read only for k below wc (00_scope.md R9). -/
def Store.word (st : Store) (k : Nat) : Word := st.words.getD k 0

/-- W[k] <- v, used only for k below wc (00_scope.md R9). -/
def Store.setWord (st : Store) (k : Nat) (v : Word) : Store := { words := st.words.set k v }

/-- The value of bit i as a word, 0 or 1: `(W[i / 64] >> (i % 64)) & 1` (20_memory.md R40). -/
def Store.bitWord (st : Store) (i : Nat) : Word := (st.word (wordIndex i) >>> bitOffset i) &&& 1

/-- Setting bit i: OR of `1 << (i % 64)` into word i / 64 (20_memory.md R40). -/
def Store.orBit (st : Store) (i : Nat) : Store :=
  st.setWord (wordIndex i) (st.word (wordIndex i) ||| oneBit (bitOffset i))

/-- A store of n zero words (40_bitstore.md R101). -/
def Store.zeros (n : Nat) : Store := { words := List.replicate n 0 }

/-- Write a slot's word count and words. -/
def State.setStore (s : State) (slot : Slot) (st : Store) : State :=
  { s with stores := s.stores.set slot.toNat st }

/-- The end of a command: the response record with its code, and the STATUS update that every command makes
(10_state.md R29, R30; 40_bitstore.md R100). -/
def State.endCommand (s : State) (e : ErrCode) (r : Word) (outb : List Byte) (outs : List Word) : State :=
  { s with status := statusAfter s.status e, resp := { r := r, outb := outb, outs := outs, err := e.code } }

/-- `raise Error(e)`: the block's only exception. No store changes, R = 0, the outputs are empty, ERR = e, STATUS
records it, and control goes nowhere (60_exceptions.md R200, R202). There is no return from it (R208). -/
def State.raiseError (s : State) (e : ErrCode) : State := s.endCommand e 0 [] []

/-- A command that ends without error and with a scalar result only (10_state.md R29). -/
def State.finish (s : State) (r : Word) : StepResult := .next (s.endCommand .ok r [] [])

/-- A command that ends with an error. -/
def State.fail (s : State) (e : ErrCode) : StepResult := .next (s.raiseError e)

/-- Reach the store of a slot field: BAD_STORE for a slot at or above N_STORES (30_encoding.md R64), else go on with
the slot's contents. The fault is for a state the spec does not have (log 9). -/
def State.withStore (s : State) (slot : Slot) (k : Store → StepResult) : StepResult :=
  if s.cfg.slotLegal slot then
    match s.stores[slot.toNat]? with
    | some st => k st
    | none => .fault .slotMissing
  else s.fail .badStore

/-- Derive the index of the seed A: `A % size`, always in range (42_index_mux.md R166, R167). The fault is for a
store of no words, which the spec does not have (log 9). -/
def State.withIndex (s : State) (st : Store) (k : Nat → StepResult) : StepResult :=
  if st.size = 0 then .fault .zeroModulus else k (s.cmd.a.toNat % st.size)

end Sys2Proof.Machine
end

