-- ==== Sys2Proof/Machine/BitStore.lean ====
section
/-! DEFINITION. The BitStore commands NEW, SIZE, SETBIT, GETBIT, COUNT, EQUALS, COPY (40_bitstore.md). -/

namespace Sys2Proof.Machine

/-- NEW sd, A (40_bitstore.md R101). -/
def execNew (sd : Slot) (s : State) : StepResult :=
  s.withStore sd fun _ =>
    let n := wordsForBits s.cmd.a.toNat
    if n > s.cfg.maxWords then s.fail .capacity
    else (s.setStore sd (Store.zeros n)).finish (toPort (n * 64))

/-- SIZE sd (40_bitstore.md R104). -/
def execSize (sd : Slot) (s : State) : StepResult :=
  s.withStore sd fun st => s.finish (toPort st.size)

/-- SETBIT sd, A: an index at or beyond the size changes nothing and is no error (40_bitstore.md R107). -/
def execSetbit (sd : Slot) (s : State) : StepResult :=
  s.withStore sd fun st =>
    if wordIndex s.cmd.a.toNat < st.wc then (s.setStore sd (st.orBit s.cmd.a.toNat)).finish 0
    else s.finish 0

/-- GETBIT sd, A: an index at or beyond the size is GET_OUT_OF_RANGE (40_bitstore.md R110, 90_conflicts.md C4). -/
def execGetbit (sd : Slot) (s : State) : StepResult :=
  s.withStore sd fun st =>
    if wordIndex s.cmd.a.toNat ≥ st.wc then s.fail .getOutOfRange
    else s.finish (st.bitWord s.cmd.a.toNat)

/-- COUNT sd: the population counts of all words, summed (40_bitstore.md R113). -/
def execCount (sd : Slot) (s : State) : StepResult :=
  s.withStore sd fun st => s.finish (toPort (st.words.map popcount).sum)

/-- EQUALS sd, ss: equal word counts and equal words (40_bitstore.md R116). -/
def execEquals (sd ss : Slot) (s : State) : StepResult :=
  s.withStore sd fun x => s.withStore ss fun y => s.finish (boolWord (decide (x.words = y.words)))

/-- COPY sd, ss: slot sd takes the word count and the words of ss (40_bitstore.md R119, 10_state.md R26). DESIGN CHOICE,
log 22: 10_state.md R22 says that the word count changes only through NEW and DECODE; the model follows R119. -/
def execCopy (sd ss : Slot) (s : State) : StepResult :=
  s.withStore sd fun _ => s.withStore ss fun y => (s.setStore sd y).finish 0

end Sys2Proof.Machine
end

