-- ==== Sys2Proof/Machine/HashIndex.lean ====
section
/-! DEFINITION. Hash multiplexing and the index commands MUX, INDEX, SETHASH, GETHASH (42_index_mux.md). -/

namespace Sys2Proof.Machine

/-- The number of seeds as R of MUX, a free value where it does not fit (42_index_mux.md R161, log 20). -/
def seedCount (m : Nat) : Word := if m < 2 ^ 64 then toPort m else Config.seedCountBeyondPort m

/-- MUX IN: OUTS are the seeds of the complete 8-byte windows, R their number (42_index_mux.md R161). -/
def execMux (s : State) : StepResult :=
  if s.cmd.input.length > s.cfg.muxMaxBytes then s.fail .digestTooLong
  else .next (s.endCommand .ok (seedCount (s.cmd.input.length / 8)) [] (parseWords s.cmd.input))

/-- INDEX sd, A (42_index_mux.md R166). -/
def execIndex (sd : Slot) (s : State) : StepResult :=
  s.withStore sd fun st => s.withIndex st fun idx => s.finish (toPort idx)

/-- SETHASH sd, A (42_index_mux.md R172). -/
def execSethash (sd : Slot) (s : State) : StepResult :=
  s.withStore sd fun st => s.withIndex st fun idx => (s.setStore sd (st.orBit idx)).finish (toPort idx)

/-- GETHASH sd, A (42_index_mux.md R175). -/
def execGethash (sd : Slot) (s : State) : StepResult :=
  s.withStore sd fun st => s.withIndex st fun idx => s.finish (st.bitWord idx)

end Sys2Proof.Machine
end

