-- ==== Sys2Proof/Machine/Serialization.lean ====
section
/-! DEFINITION. The serialization commands ENCODE and DECODE (41_serialization.md). -/

namespace Sys2Proof.Machine

/-- ENCODE sd: OUTB is the image, R its length in bytes (41_serialization.md R141, R143). -/
def execEncode (sd : Slot) (s : State) : StepResult :=
  s.withStore sd fun st => .next (s.endCommand .ok (toPort (8 * st.wc)) (imageOf st.words) [])

/-- The store an image stands for: its parsed words, or one zero word where it has no complete chunk
(41_serialization.md R142, R146; 90_conflicts.md C1). -/
def Store.ofImage (bytes : List Byte) : Store :=
  if bytes.length / 8 = 0 then Store.oneZero else { words := parseWords bytes }

/-- DECODE sd, IN (41_serialization.md R146). -/
def execDecode (sd : Slot) (s : State) : StepResult :=
  s.withStore sd fun _ =>
    if s.cmd.input.length / 8 > s.cfg.maxWords then s.fail .capacity
    else (s.setStore sd (Store.ofImage s.cmd.input)).finish (toPort (Store.ofImage s.cmd.input).size)

end Sys2Proof.Machine
end

