-- ==== Sys2Proof/Machine/Dispatch.lean ====
section
/-! DEFINITION. One arm per command of the opcode table (30_encoding.md R63). -/

namespace Sys2Proof.Machine

def exec (i : Instr) (s : State) : Host.Outcome State Fault Refusal :=
  match i with
  | .new sd => Sys2Proof.Machine.execNew sd s
  | .size sd => Sys2Proof.Machine.execSize sd s
  | .setbit sd => Sys2Proof.Machine.execSetbit sd s
  | .getbit sd => Sys2Proof.Machine.execGetbit sd s
  | .count sd => Sys2Proof.Machine.execCount sd s
  | .equals sd ss => Sys2Proof.Machine.execEquals sd ss s
  | .copy sd ss => Sys2Proof.Machine.execCopy sd ss s
  | .encode sd => Sys2Proof.Machine.execEncode sd s
  | .decode sd => Sys2Proof.Machine.execDecode sd s
  | .mux => Sys2Proof.Machine.execMux s
  | .index sd => Sys2Proof.Machine.execIndex sd s
  | .sethash sd => Sys2Proof.Machine.execSethash sd s
  | .gethash sd => Sys2Proof.Machine.execGethash sd s

end Sys2Proof.Machine
end

