-- ==== Sys2Proof/Machine/Perform.lean ====
section
/-! DEFINITION. Performing one command record: the command registers take it, its word is decoded, and its rule runs
(30_encoding.md R64, 40_bitstore.md R100). One performance is one atomic transition (00_scope.md R10). -/

namespace Sys2Proof.Machine

/-- The command registers CW, A and IN take a command record (10_state.md R28). -/
def State.latch (s : State) (c : Command) : State := { s with cmd := c }

/-- Perform a command: a rejected word ends it with its error, any other runs the command's meaning. The response is
left in the response registers (10_state.md R29). -/
def State.perform (s : State) (c : Command) : StepResult :=
  match decode c.cw with
  | .error e => (s.latch c).fail (rejectError e)
  | .ok i => exec i (s.latch c)

end Sys2Proof.Machine
end

