-- ==== Sys2Proof/Machine/Hosts.lean ====
section
/-! DEFINITION. Hosts, the arbiter and the reset input (10_state.md R20, R32; 20_memory.md R49; 70_reset_and_hazards.md
R230). The machine's moves are: the block performs one outstanding command, or the next event from outside happens.
Which open move happens is a free choice (log 4). -/

namespace Sys2Proof.Machine

/-- One move of the machine. -/
inductive Move where
  /-- the arbiter takes this outstanding command and the block performs it -/
  | perform (req : Request)
  /-- this event from outside happens -/
  | input (e : Input)
  deriving DecidableEq, Repr

/-- A host may issue: it has no command outstanding and no response waiting (10_state.md R32). -/
def State.hostFree (s : State) (h : Nat) : Bool :=
  !(s.outstanding.any fun q => q.host == h) && !(s.responses.any fun p => p.host == h)

/-- Whether an event from outside can happen now. A host that is not free does not issue, and a host accepts only a
response that is there (10_state.md R32); STATUS can be read, and reset asserted, at any time (R30, R230). -/
def State.inputReady (s : State) : Input → Bool
  | .issue h _ => s.hostFree h
  | .accept h => s.responses.any fun p => p.host == h
  | .readStatus _ => true
  | .reset => true

/-- The next event from outside, where it can happen now. -/
def State.inputMoves (s : State) : List Move :=
  match s.inputs with
  | [] => []
  | e :: _ => if s.inputReady e then [.input e] else []

/-- The open moves: any outstanding command may be performed next (10_state.md R32), or the next event happens. -/
def State.moves (s : State) : List Move := s.outstanding.map Move.perform ++ s.inputMoves

/-- The move that happens: none where none is open, the only one where there is no choice, else a free choice
(10_state.md R32, log 4). -/
def State.nextMove (s : State) : Option Move :=
  match s.moves with
  | [] => none
  | [m] => some m
  | m :: ms => (m :: ms)[Config.arbiterChoice s.choices % (m :: ms).length]?

/-- The reset input: every piece of the block's state takes its reset value, so outstanding commands are discarded
without a response (70_reset_and_hazards.md R230, R232). The build, what hosts received, what the outside will still
do, and the counter of choices are not the block's state and stay (log 7). -/
def State.assertReset (s : State) : State :=
  { State.resetWith s.cfg with delivered := s.delivered, inputs := s.inputs, choices := s.choices }

/-- A host accepts the response that waits for it (10_state.md R20). -/
def State.acceptResponse (s : State) (h : Nat) : State :=
  match s.responses.find? fun p => p.host == h with
  | none => s
  | some p => { s with responses := s.responses.erase p, delivered := s.delivered ++ [.response h p.resp] }

/-- An event from outside happens. -/
def State.applyInput (s : State) : Input → State
  | .issue h c => { s with outstanding := s.outstanding ++ [{ host := h, cmd := c }] }
  | .accept h => s.acceptResponse h
  | .readStatus h => { s with delivered := s.delivered ++ [.status h s.readStatus] }
  | .reset => s.assertReset

/-- The request leaves the set of outstanding commands (10_state.md R33). -/
def State.dropRequest (s : State) (q : Request) : State := { s with outstanding := s.outstanding.erase q }

/-- The response registers go to the response port of the host that issued the command (10_state.md R29). -/
def State.respondTo (s : State) (h : Nat) : State :=
  { s with responses := s.responses ++ [{ host := h, resp := s.resp }] }

/-- The block performs an outstanding command and returns exactly one response, to its host (10_state.md R29, R32). -/
def State.runRequest (s : State) (q : Request) : StepResult :=
  match (s.dropRequest q).perform q.cmd with
  | .next t => .next (t.respondTo q.host)
  | .fault f => .fault f
  | .refused r => .refused r

/-- The next event leaves the list of events to come. -/
def State.popInput (s : State) : State := { s with inputs := s.inputs.tail }

/-- One choice more has been made. -/
def State.countChoice (s : State) : State := { s with choices := s.choices + 1 }

/-- A move happens. -/
def State.doMove (s : State) : Move → StepResult
  | .perform q => s.countChoice.runRequest q
  | .input e => .next (s.countChoice.popInput.applyInput e)

/-- A host number that no request and no pending response carries. -/
def State.freshHost (s : State) : Nat :=
  s.responses.foldl (fun n p => max n (p.host + 1)) 0

/-- One host alone has this command outstanding and nothing else will happen: what `withFetchWord` places. -/
def State.presentOnly (s : State) (c : Command) : State :=
  { s with outstanding := [{ host := s.freshHost, cmd := c }], inputs := [] }

end Sys2Proof.Machine
end

