-- ==== Sys2Proof/Machine/Step.lean ====
section
/-! DEFINITION. One step of the machine (10_state.md R20, R32). -/

namespace Sys2Proof.Machine

/-- One move of the machine. Where no move is open the block waits, unchanged (70_reset_and_hazards.md R231, log 6). -/
def step (s : State) : Host.Outcome State Fault Refusal :=
  match s.nextMove with
  | none => .next s
  | some m => s.doMove m

/-- The state with the command of the opcode table that has these bits outstanding, alone, with A = 0 and IN = [], so
that the next step performs it (logs 5, 16). A word that is no 32-bit command word places nothing. -/
def State.withFetchWord (s : State) (nbits w : Nat) : State :=
  match tableWord nbits w with
  | none => s
  | some cw => s.presentOnly { cw := cw, a := 0, input := [] }

end Sys2Proof.Machine
end

