-- ==== Sys2Proof/Machine/Filter.lean ====
section
/-! DEFINITION. The host-side expansions ADD and TEST over one digest (30_encoding.md R71, R72). They are command
sequences a host issues, not commands of the block, and not atomic as a group: `isAddRecord` and `testRecordAnswer` say
which commands and responses of a host are one ADD or one TEST, and in a `HostRun` with that record the commands of
other hosts fall between them (20_memory.md R50). `State.hostAdd` and `State.hostTest` are the runs of them in which no
other host's command does (log 15). -/

namespace Sys2Proof.Machine

/-- `MUX [digest]` as a command record (30_encoding.md R70). -/
def muxCommand (digest : List Byte) : Command := { cw := encode .mux, a := 0, input := digest }

/-- `SETHASH sD, x` as a command record (30_encoding.md R70). -/
def sethashCommand (sd : Slot) (x : Word) : Command := { cw := encode (.sethash sd), a := x, input := [] }

/-- `GETHASH sD, x` as a command record (30_encoding.md R70). -/
def gethashCommand (sd : Slot) (x : Word) : Command := { cw := encode (.gethash sd), a := x, input := [] }

/-- Perform SETHASH for each seed, in order (30_encoding.md R71). -/
def State.setProbes (sd : Slot) : List Word → State → StepResult
  | [], s => .next s
  | x :: xs, s =>
    match s.perform (sethashCommand sd x) with
    | .next t => State.setProbes sd xs t
    | .fault f => .fault f
    | .refused r => .refused r

/-- Perform GETHASH for each seed up to and including the first that answers 0; true when none does
(30_encoding.md R72). -/
def State.testProbes (sd : Slot) : List Word → State → Host.Outcome (Bool × State) Fault Refusal
  | [], s => .next (true, s)
  | x :: xs, s =>
    match s.perform (gethashCommand sd x) with
    | .next t => if t.resp.r = 0 then .next (false, t) else State.testProbes sd xs t
    | .fault f => .fault f
    | .refused r => .refused r

/-- `ADD sD, [digest]` (30_encoding.md R71). -/
def State.hostAdd (sd : Slot) (digest : List Byte) (s : State) : StepResult :=
  match s.perform (muxCommand digest) with
  | .next t => t.setProbes sd t.resp.outs
  | .fault f => .fault f
  | .refused r => .refused r

/-- `TEST sD, [digest]`: the host's Boolean and the state after (30_encoding.md R72; 93_implementation_defined.md I6). -/
def State.hostTest (sd : Slot) (digest : List Byte) (s : State) : Host.Outcome (Bool × State) Fault Refusal :=
  match s.perform (muxCommand digest) with
  | .next t => t.testProbes sd t.resp.outs
  | .fault f => .fault f
  | .refused r => .refused r

/-- Whether what was performed for a host is one `ADD sD, [digest]`: MUX of the digest, then SETHASH of each seed of its
response, in order (30_encoding.md R71). -/
def isAddRecord (sd : Slot) (digest : List Byte) : List (Command × Response) → Bool
  | [] => false
  | (c, r) :: rest => c == muxCommand digest && rest.map Prod.fst == r.outs.map (sethashCommand sd)

/-- The host's Boolean from what was performed for it after the MUX of a TEST: GETHASH of each seed up to and including
the first that answered 0; none where the record is no such sequence (30_encoding.md R72). -/
def probesAnswer (sd : Slot) : List Word → List (Command × Response) → Option Bool
  | [], [] => some true
  | [], _ :: _ => none
  | _ :: _, [] => none
  | x :: xs, (c, r) :: rest =>
    if c ≠ gethashCommand sd x then none
    else if r.r = 0 then (if rest = [] then some false else none)
    else probesAnswer sd xs rest

/-- The host's Boolean where what was performed for it is one `TEST sD, [digest]`, none where it is not
(30_encoding.md R72). -/
def testRecordAnswer (sd : Slot) (digest : List Byte) : List (Command × Response) → Option Bool
  | [] => none
  | (c, r) :: rest => if c = muxCommand digest then probesAnswer sd r.outs rest else none

end Sys2Proof.Machine
end

