-- ==== Sys2Proof/Machine/Runs.lean ====
section
/-! DEFINITION. The steps and runs that the spec admits: any open move may happen, and hosts may go on issuing without
end (10_state.md R32; 20_memory.md R49, R50, R52). `step` is one such step with the arbiter's choice made. -/

namespace Sys2Proof.Machine

/-- The outside world decides on more events to come (log 21). -/
def State.offer (s : State) (events : List Input) : State := { s with inputs := s.inputs ++ events }

/-- One step of the step relation: a move that is open now, whichever the arbiter picks (10_state.md R32), or, with no
move, more events to come; none more is a pause. -/
def OpenStep (s : State) (m : Option Move) (t : State) : Prop :=
  match m with
  | some m => m ∈ s.moves ∧ s.doMove m = .next t
  | none => ∃ events, t = s.offer events

/-- A run without end: its states, and the moves between them (20_memory.md R49, R52). -/
def OpenRun (state : Nat → State) (move : Nat → Option Move) : Prop :=
  ∀ k, OpenStep (state k) (move k) (state (k + 1))

/-- Weak fairness over hosts with an outstanding command (20_memory.md R52, 70_reset_and_hazards.md R237): a host that
from some point on always has a command outstanding has a command performed at or after that point. -/
def WeaklyFair (state : Nat → State) (move : Nat → Option Move) : Prop :=
  ∀ (h k : Nat), (∀ j, k ≤ j → ∃ q ∈ (state j).outstanding, q.host = h) →
    ∃ j q, k ≤ j ∧ q.host = h ∧ move j = some (.perform q)

/-- What a step to the state t adds to the record of a host: the host's own command and its response where the step
performed one, nothing where it did anything else. -/
def State.logEntry (t : State) (h : Nat) : Option Move → List (Command × Response)
  | some (.perform q) => if q.host = h then [(q.cmd, t.resp)] else []
  | some (.input _) => []
  | none => []

/-- A run of steps whose every move passes a test, with the record of what was performed for host h in it, in order. The
commands of all other hosts, and any event, fall wherever they may between h's own (20_memory.md R49, R50). -/
inductive HostRun (test : Move → Bool) (h : Nat) : List (Command × Response) → State → State → Prop where
  | done (s : State) : HostRun test h [] s s
  | step {log : List (Command × Response)} {s t u : State} (m : Option Move) (passes : m.all test = true)
      (move : OpenStep s m t) (rest : HostRun test h log t u) : HostRun test h (t.logEntry h m ++ log) s u

end Sys2Proof.Machine
end

