-- ==== Sys2Proof/Safety.lean ====
section
/-! DEFINITION. What claims about the block speak of: the invariant of its states, the views of a store, the slot a
command writes, and runs. -/

namespace Sys2Proof

/-- The slot whose store a command may write (10_state.md R26). -/
def Instr.writes : Instr → Option Slot
  | .new sd => some sd
  | .setbit sd => some sd
  | .copy sd _ => some sd
  | .decode sd => some sd
  | .sethash sd => some sd
  | .size _ => none
  | .getbit _ => none
  | .count _ => none
  | .equals _ _ => none
  | .encode _ => none
  | .mux => none
  | .index _ => none
  | .gethash _ => none

/-- The slot whose word count a command may change and whose bits it may clear: NEW, DECODE and COPY alone
(40_bitstore.md R103, 20_memory.md R55; COPY against 10_state.md R22, log 22). -/
def Instr.rebuilds : Instr → Option Slot
  | .new sd => some sd
  | .copy sd _ => some sd
  | .decode sd => some sd
  | .size _ => none
  | .setbit _ => none
  | .getbit _ => none
  | .count _ => none
  | .equals _ _ => none
  | .encode _ => none
  | .mux => none
  | .index _ => none
  | .sethash _ => none
  | .gethash _ => none

/-- The mask of an opcode's format (30_encoding.md R62). -/
def opMask (op : Nat) : CmdWord :=
  if op = 0x06 ∨ op = 0x07 then 0xFFFF00FF else if op = 0x0A then 0xFFFFFFFF else 0xFFFFF0FF

/-- A command word whose opcode is 0x01 to 0x0D (30_encoding.md R63, R67). -/
abbrev legalOp (cw : CmdWord) : Prop := 1 ≤ cw.toNat % 256 ∧ cw.toNat % 256 ≤ 13

/-- A command word's opcode as a word, the match value of its row (30_encoding.md R63). -/
def opMatch (cw : CmdWord) : CmdWord := BitVec.ofNat 32 (cw.toNat % 256)

/-- The command word with an opcode, SD and SS at their bits, and 0 elsewhere, by shifts (30_encoding.md R60). -/
def wordOf (op : Nat) (sd ss : Slot) : CmdWord :=
  BitVec.ofNat 32 op ||| (sd.setWidth 32 <<< 8) ||| (ss.setWidth 32 <<< 12)

end Sys2Proof

namespace Sys2Proof.Machine

/-- A store as the spec allows it: 1 ≤ wc ≤ MAX_WORDS (10_state.md R22, R23). -/
abbrev Store.legal (maxWords : Nat) (st : Store) : Prop := 1 ≤ st.wc ∧ st.wc ≤ maxWords

/-- The hosts of all requests and of all pending responses, in one list. -/
def State.busyHosts (s : State) : List Nat := s.outstanding.map Request.host ++ s.responses.map PendingResponse.host

/-- The build's parameters are legal, and every slot holds a legal store (00_scope.md R5, 10_state.md R21, R22, R23). -/
abbrev State.storesOk (s : State) : Prop :=
  s.cfg.legal ∧ s.stores.length = s.cfg.nStores ∧ ∀ st ∈ s.stores, st.legal s.cfg.maxWords

/-- STATUS as the spec allows it: bits 31:14 are 0, LAST_ERR is 0 to 6, and an error in LAST_ERR has its sticky bit
(10_state.md R30). -/
abbrev State.statusOk (s : State) : Prop :=
  s.status >>> 14 = 0 ∧ (lastErr s.status).toNat ≤ 6 ∧
    (lastErr s.status ≠ 0 → s.status.getLsbD (7 + (lastErr s.status).toNat) = true)

/-- A host has at most one command outstanding, and none while a response waits for it (10_state.md R32). -/
abbrev State.hostsOk (s : State) : Prop := s.busyHosts.Nodup

/-- The invariant of the machine. -/
abbrev State.Inv (s : State) : Prop := s.storesOk ∧ s.statusOk ∧ s.hostsOk

/-- A slot field names a slot of the build, and that slot holds this store. -/
abbrev State.holds (s : State) (slot : Slot) (st : Store) : Prop :=
  s.cfg.slotLegal slot = true ∧ s.stores[slot.toNat]? = some st

/-- Bit i of a store, false at and beyond its size: bit i % 64 of word i / 64 (20_memory.md R40). -/
def Store.bit (st : Store) (i : Nat) : Bool := (st.words.getD (i / 64) 0).getLsbD (i % 64)

/-- Bit i of slot number k, false for a slot that is not there. -/
def State.bitAt (s : State) (k i : Nat) : Bool :=
  match s.stores[k]? with
  | some st => st.bit i
  | none => false

/-- The word count of slot number k, 0 for a slot that is not there. -/
def State.wcAt (s : State) (k : Nat) : Nat :=
  match s.stores[k]? with
  | some st => st.wc
  | none => 0

/-- A move that is no reset and performs no NEW, DECODE or COPY into the slot (20_memory.md R55). -/
def Move.keeps (slot : Slot) : Move → Bool
  | .input .reset => false
  | .input _ => true
  | .perform q =>
    match decode q.cmd.cw with
    | .ok i => i.rebuilds != some slot
    | .error _ => true

/-- A move that is no reset and performs no command that writes the slot (10_state.md R26). -/
def Move.spares (slot : Slot) : Move → Bool
  | .input .reset => false
  | .input _ => true
  | .perform q =>
    match decode q.cmd.cw with
    | .ok i => i.writes != some slot
    | .error _ => true

/-- A run of k steps of the step relation, whose every move keeps the slot, from s to t. -/
inductive QuietRun (slot : Slot) : Nat → State → State → Prop where
  | stay (s : State) : QuietRun slot 0 s s
  | step {k : Nat} {s t u : State} (m : Option Move) (quiet : m.all (Move.keeps slot) = true)
      (move : OpenStep s m t) (rest : QuietRun slot k t u) : QuietRun slot (k + 1) s u

/-- An event that issues a command. -/
def Input.isIssue : Input → Bool
  | .issue _ _ => true
  | .accept _ => false
  | .readStatus _ => false
  | .reset => false

/-- A run is over when no command is outstanding and none will be issued; other events may still come
(70_reset_and_hazards.md R238). DESIGN CHOICE, log 19: R238 does not say whether a host that stops waiting has finished,
nor anything about commands that a reset discarded; here a run is over although a response still waits for its host, and
a discarded command is outstanding no more. -/
abbrev State.runOver (s : State) : Prop := s.outstanding = [] ∧ ∀ e ∈ s.inputs, e.isIssue = false

/-- No command failed since reset: every sticky bit is 0 (70_reset_and_hazards.md R238). -/
abbrev State.noneFailed (s : State) : Prop := s.readStatus >>> 8 = 0

/-- The responses a host received, in order (70_reset_and_hazards.md R238): those it accepted. A response that still
waits for the host is not among them (DESIGN CHOICE, log 19); `State.returned` has it too. -/
def State.received (s : State) (h : Nat) : List Response :=
  s.delivered.filterMap fun d =>
    match d with
    | .response g r => if g = h then some r else none
    | .status _ _ => none

/-- The responses the block returned to a host, in order: those it received, then one that still waits for it
(10_state.md R29, log 19). -/
def State.returned (s : State) (h : Nat) : List Response :=
  s.received h ++ (s.responses.filter fun p => p.host == h).map PendingResponse.resp

/-- What one host can observe at the end of a run: the word count and words of every slot, STATUS, and the responses it
received (70_reset_and_hazards.md R238). -/
structure Observation where
  stores : List Store
  status : BitVec 32
  responses : List Response
  deriving DecidableEq, Repr

/-- The observation of host h (70_reset_and_hazards.md R238). -/
def State.observe (s : State) (h : Nat) : Observation :=
  { stores := s.stores, status := s.readStatus, responses := s.received h }

/-- STATUS at the end of a command without error: LAST_ERR is 0, all else as before (10_state.md R30). -/
def statusOkEnd (st : BitVec 32) : BitVec 32 := st &&& 0xFFFFFF00

/-- STATUS at the end of a command with error number e: LAST_ERR is e, bit 7 + e is set, all else as before
(10_state.md R30). -/
def statusErrEnd (st : BitVec 32) (e : Nat) : BitVec 32 :=
  (st &&& 0xFFFFFF00) ||| BitVec.ofNat 32 e ||| ((1 : BitVec 32) <<< (7 + e))

/-- The state after a command that succeeds with these stores and this response: STATUS as `statusOkEnd` says,
everything else as before (10_state.md R29, R30). -/
def State.succeeded (s : State) (stores : List Store) (r : Word) (outb : List Byte) (outs : List Word) : State :=
  { s with stores := stores, status := statusOkEnd s.status, resp := { r := r, outb := outb, outs := outs, err := 0 } }

/-- The state after a command that ends with error number e: R = 0, empty outputs, ERR = e, STATUS as `statusErrEnd`
says, everything else as before (60_exceptions.md R202). -/
def State.failed (s : State) (e : Nat) : State :=
  { s with status := statusErrEnd s.status e, resp := { r := 0, outb := [], outs := [], err := BitVec.ofNat 8 e } }

end Sys2Proof.Machine
end

