-- ==== Sys2Proof/Certificates/Slice0/Obligations.lean ====
section
/-! DEFINITION. The statements for the provers. Each docstring names the rule of spec/ that the statement formalises. -/

open Sys2Proof Sys2Proof.Machine

/-! ## Encoding -/

/-- Every command's word decodes to the command, with every slot field at every value (30_encoding.md R60 to R64). -/
def Obligations.DecodeOfEncode : Prop := ∀ i : Instr, decode (encode i) = .ok i

/-- A word that decodes to a command is that command's word: no two words mean the same command, and no bit of an
accepted word is ignored (30_encoding.md R60, R62). -/
def Obligations.EncodeOfDecode : Prop := ∀ (cw : CmdWord) (i : Instr), decode cw = .ok i → encode i = cw

/-- A word is accepted exactly when its opcode is in the map and `(CW & mask) == match`; it is an illegal opcode exactly
when its opcode is 0x00 or 0x0E to 0xFF; every other word is a reserved-field error (30_encoding.md R62, R64, R67). -/
def Obligations.DecoderClassifiesEveryWord : Prop :=
  ∀ cw : CmdWord,
    ((∃ i, decode cw = .ok i) ↔ legalOp cw ∧ cw &&& opMask (cw.toNat % 256) = opMatch cw) ∧
    (decode cw = .error .illegalOpcode ↔ ¬ legalOp cw) ∧
    (decode cw = .error .reservedField ↔ legalOp cw ∧ cw &&& opMask (cw.toNat % 256) ≠ opMatch cw)

/-- Words written out from the spec's examples decode to the commands they stand for (30_encoding.md R63 and the
worked examples of the command rules). -/
def Obligations.ExampleWordsDecode : Prop :=
  decode 0x00000103 = .ok (.setbit 1) ∧ decode 0x00001006 = .ok (.equals 0 1) ∧ decode 0x00000107 = .ok (.copy 1 0) ∧
    decode 0x00000109 = .ok (.decode 1) ∧ decode 0x0000000A = .ok .mux ∧ decode 0x0000000B = .ok (.index 0)

/-- A rejected word ends its command with ILLEGAL_OPCODE or RESERVED_FIELD and no other effect (30_encoding.md R64, R67). -/
def Obligations.RejectedWordReportsItsError : Prop :=
  ∀ (s : State) (c : Command),
    (decode c.cw = .error .illegalOpcode → s.perform c = .next ((s.latch c).failed 1)) ∧
    (decode c.cw = .error .reservedField → s.perform c = .next ((s.latch c).failed 2))

/-- A command of the table that names a slot at or above N_STORES ends with BAD_STORE (30_encoding.md R61, R64). -/
def Obligations.IllegalSlotReportsBadStore : Prop :=
  ∀ (i : Instr) (s : State), s.storesOk → i.wf s.cfg = false → exec i s = .next (s.failed 3)

/-! ## Errors and STATUS -/

/-- A command that ends with ERR = e ≠ 0 changes no store, answers R = 0, OUTB = [], OUTS = [], ERR = e, and sets
LAST_ERR to e and sticky bit 7 + e; e is 1 to 6 (60_exceptions.md R202). -/
def Obligations.ErrorHasOnlyItsRecordedEffect : Prop :=
  ∀ (s t : State) (c : Command), s.perform c = .next t → t.resp.err ≠ 0 →
    t = (s.latch c).failed t.resp.err.toNat ∧ t.resp.err.toNat ≤ 6

/-- Every performed command updates STATUS with its own ERR: LAST_ERR takes it, an error sets its sticky bit, every
other bit stays (10_state.md R30, the update at the end of every command). -/
def Obligations.EveryCommandUpdatesStatus : Prop :=
  ∀ (s t : State) (c : Command), s.perform c = .next t →
    t.status = if t.resp.err = 0 then statusOkEnd s.status else statusErrEnd s.status t.resp.err.toNat

/-- No step but a reset clears a sticky bit (10_state.md R30, 60_exceptions.md R208). -/
def Obligations.OnlyResetClearsStickyBits : Prop :=
  ∀ s t : State, step s = .next t → s.nextMove ≠ some (.input .reset) →
    ∀ b, 8 ≤ b → s.status.getLsbD b = true → t.status.getLsbD b = true

/-- What a host reads from STATUS: bits 31:14 are 0 in every state, bits 13:0 are those of STATUS (10_state.md R30). -/
def Obligations.StatusReservedBitsReadZero : Prop :=
  ∀ s : State, s.readStatus >>> 14 = 0 ∧ ∀ b < 14, s.readStatus.getLsbD b = s.status.getLsbD b

/-- A host that reads STATUS gets its value, bits 13:0 of STATUS and 0 above, and changes nothing of the block: the next
state has one choice counted, one event less to come, and the value delivered (10_state.md R30). That the read is an
event from outside with its own step is the model's choice (logs 4, 5), and `delivered` is the model's field (log 8). -/
def Obligations.ReadingStatusChangesNoBlockState : Prop :=
  ∀ (s : State) (h : Nat), s.nextMove = some (.input (.readStatus h)) →
    ∃ v : BitVec 32, v >>> 14 = 0 ∧ (∀ b < 14, v.getLsbD b = s.status.getLsbD b) ∧
      step s = .next { s with
        choices := s.choices + 1, inputs := s.inputs.tail, delivered := s.delivered ++ [.status h v] }

/-! ## NEW, SIZE, SETBIT, GETBIT, COUNT, EQUALS, COPY -/

/-- NEW (40_bitstore.md R101): with n = max 1 (ceil (A / 64)), computed exactly, slot sd becomes n zero words and
R = 64 n where n ≤ MAX_WORDS; CAPACITY and no change where n > MAX_WORDS. -/
def Obligations.NewBuildsZeroStoreOrReportsCapacity : Prop :=
  ∀ (s : State) (sd : Slot) (st : Store) (n : Nat), s.cfg.legal → s.holds sd st →
    n = max 1 ((s.cmd.a.toNat + 63) / 64) →
    decode (wordOf 0x01 sd 0) = .ok (.new sd) ∧
    (n ≤ s.cfg.maxWords → ∃ r : Word, r.toNat = n * 64 ∧
      exec (.new sd) s = .next (s.succeeded (s.stores.set sd.toNat { words := List.replicate n 0 }) r [] [])) ∧
    (s.cfg.maxWords < n → exec (.new sd) s = .next (s.failed 4))

/-- A freshly constructed store is all zero (40_bitstore.md R102): after a NEW without error, GETBIT of every index in
range returns 0 without error and COUNT returns 0. -/
def Obligations.FreshStoreIsAllZero : Prop :=
  ∀ (s t : State) (sd : Slot), s.cfg.slotLegal sd = true → exec (.new sd) s = .next t → t.resp.err = 0 →
    ∀ c : Command,
      (c.a.toNat < t.wcAt sd.toNat * 64 →
        ∃ u, exec (.getbit sd) (t.latch c) = .next u ∧ u.resp.r = 0 ∧ u.resp.err = 0) ∧
      (∃ u, exec (.count sd) (t.latch c) = .next u ∧ u.resp.r = 0)

/-- SIZE (40_bitstore.md R104): R is wc × 64, at least 64, exact; no store changes. -/
def Obligations.SizeReturnsBitCapacity : Prop :=
  ∀ (s : State) (sd : Slot) (st : Store), s.storesOk → s.holds sd st →
    decode (wordOf 0x02 sd 0) = .ok (.size sd) ∧
    ∃ r : Word, r.toNat = st.wc * 64 ∧ 64 ≤ r.toNat ∧ exec (.size sd) s = .next (s.succeeded s.stores r [] [])

/-- SETBIT (40_bitstore.md R107): an index below the size ORs its bit into its word, an index at or beyond it changes
no store and is no error; R = 0. -/
def Obligations.SetbitOrsOneBitOrDoesNothing : Prop :=
  ∀ (s : State) (sd : Slot) (st : Store), s.holds sd st →
    decode (wordOf 0x03 sd 0) = .ok (.setbit sd) ∧
    (s.cmd.a.toNat < st.wc * 64 → exec (.setbit sd) s = .next (s.succeeded (s.stores.set sd.toNat
      { words := st.words.set (s.cmd.a.toNat / 64)
          (st.words.getD (s.cmd.a.toNat / 64) 0 ||| ((1 : Word) <<< (s.cmd.a.toNat % 64))) }) 0 [] [])) ∧
    (st.wc * 64 ≤ s.cmd.a.toNat → exec (.setbit sd) s = .next (s.succeeded s.stores 0 [] []))

/-- Set then get (40_bitstore.md R108): after SETBIT of an in-range index GETBIT of it returns 1, and every other bit of
every store is as before. -/
def Obligations.SetThenGet : Prop :=
  ∀ (s : State) (sd : Slot) (st : Store), s.holds sd st → s.cmd.a.toNat < st.wc * 64 →
    ∃ t, exec (.setbit sd) s = .next t ∧
      (∀ c : Command, c.a = s.cmd.a → ∃ u, exec (.getbit sd) (t.latch c) = .next u ∧ u.resp.r = 1) ∧
      ∀ k i, (k, i) ≠ (sd.toNat, s.cmd.a.toNat) → t.bitAt k i = s.bitAt k i

/-- GETBIT (40_bitstore.md R110): an index below the size returns its bit, an index at or beyond it is
GET_OUT_OF_RANGE with R = 0 and no change. -/
def Obligations.GetbitReturnsBitOrReportsRange : Prop :=
  ∀ (s : State) (sd : Slot) (st : Store), s.holds sd st →
    decode (wordOf 0x04 sd 0) = .ok (.getbit sd) ∧
    (s.cmd.a.toNat < st.wc * 64 → exec (.getbit sd) s =
      .next (s.succeeded s.stores (if st.bit s.cmd.a.toNat then 1 else 0) [] [])) ∧
    (st.wc * 64 ≤ s.cmd.a.toNat → exec (.getbit sd) s = .next (s.failed 5))

/-- COUNT (40_bitstore.md R113): R is the number of bits of the store that are 1, exact; no store changes. -/
def Obligations.CountReturnsNumberOfSetBits : Prop :=
  ∀ (s : State) (sd : Slot) (st : Store), s.storesOk → s.holds sd st →
    decode (wordOf 0x05 sd 0) = .ok (.count sd) ∧
    ∃ r : Word, r.toNat = (List.range (st.wc * 64)).countP st.bit ∧
      exec (.count sd) s = .next (s.succeeded s.stores r [] [])

/-- EQUALS (40_bitstore.md R116): R = 1 when the word counts agree and every word agrees, else 0; no store changes. -/
def Obligations.EqualsComparesWordForWord : Prop :=
  ∀ (s : State) (sd ss : Slot) (x y : Store), s.holds sd x → s.holds ss y →
    decode (wordOf 0x06 sd ss) = .ok (.equals sd ss) ∧
    exec (.equals sd ss) s = .next (s.succeeded s.stores
      (if x.wc = y.wc ∧ ∀ k < x.wc, x.words.getD k 0 = y.words.getD k 0 then 1 else 0) [] [])

/-- COPY (40_bitstore.md R119): slot sd takes the word count and words of ss, R = 0; copying a slot onto itself changes
no store; afterwards EQUALS sd, ss returns 1. That COPY changes the word count, where 10_state.md R22 names NEW and
DECODE only, is the model's choice between the spec's rules (log 22). -/
def Obligations.CopyTakesWordCountAndWords : Prop :=
  ∀ (s : State) (sd ss : Slot) (x y : Store), s.holds sd x → s.holds ss y →
    decode (wordOf 0x07 sd ss) = .ok (.copy sd ss) ∧
    ∃ t, exec (.copy sd ss) s = .next t ∧ t = s.succeeded (s.stores.set sd.toNat y) 0 [] [] ∧
      (sd = ss → t.stores = s.stores) ∧
      ∀ c : Command, ∃ u, exec (.equals sd ss) (t.latch c) = .next u ∧ u.resp.r = 1

/-- No aliasing (40_bitstore.md R120): after COPY between two slots, a later command that writes one of them never
changes the other. Later: at once, or after any run of steps, commands of any hosts among them; and through a whole run
in which commands write the one slot or any third, but not the other, the other holds what it held after COPY, which for
the source is what it held before. The runs are those of the model's step relation (logs 4, 5, 21). -/
def Obligations.CopyIsIndependent : Prop :=
  ∀ (s t u : State) (sd ss : Slot) (h : Nat) (log : List (Command × Response)), sd ≠ ss →
    exec (.copy sd ss) s = .next t →
    (HostRun (fun _ => true) h log t u → ∀ (c : Command) (j : Instr) (v : State), exec j (u.latch c) = .next v →
      (j.writes = some sd → v.stores[ss.toNat]? = u.stores[ss.toNat]?) ∧
      (j.writes = some ss → v.stores[sd.toNat]? = u.stores[sd.toNat]?)) ∧
    (HostRun (Move.spares ss) h log t u → u.stores[ss.toNat]? = s.stores[ss.toNat]?) ∧
    (HostRun (Move.spares sd) h log t u → u.stores[sd.toNat]? = t.stores[sd.toNat]?)

/-! ## ENCODE, DECODE -/

/-- ENCODE (41_serialization.md R141, R143): OUTB has 8 wc bytes, byte 8k + j is bits 8j+7 : 8j of word k, R is the
length of OUTB, exact; no store changes. -/
def Obligations.EncodeEmitsLittleEndianImage : Prop :=
  ∀ (s : State) (sd : Slot) (st : Store), s.storesOk → s.holds sd st →
    decode (wordOf 0x08 sd 0) = .ok (.encode sd) ∧
    ∃ (r : Word) (outb : List Byte), exec (.encode sd) s = .next (s.succeeded s.stores r outb []) ∧
      r.toNat = 8 * st.wc ∧ outb.length = 8 * st.wc ∧
      ∀ k < st.wc, ∀ j < 8, outb[8 * k + j]? = some ((st.words.getD k 0).extractLsb' (8 * j) 8)

/-- Mixed-width view (20_memory.md R42): bit i of a store is bit i % 8 of byte i / 8 of its image. -/
def Obligations.BitsAreBitsOfTheImage : Prop :=
  ∀ (s : State) (sd : Slot) (st : Store), s.holds sd st →
    ∃ t, exec (.encode sd) s = .next t ∧
      ∀ i < st.wc * 64, st.bit i = (t.resp.outb.getD (i / 8) 0).getLsbD (i % 8)

/-- DECODE (41_serialization.md R142, R146): more than MAX_WORDS chunks is CAPACITY; fewer than 8 bytes leave one zero
word; else wc is the number of complete chunks, byte j of word k is IN[8k + j], and R is the new size, exact. -/
def Obligations.DecodeLoadsCompleteChunks : Prop :=
  ∀ (s : State) (sd : Slot) (st : Store), s.cfg.legal → s.holds sd st →
    decode (wordOf 0x09 sd 0) = .ok (.decode sd) ∧
    (s.cfg.maxWords < s.cmd.input.length / 8 → exec (.decode sd) s = .next (s.failed 4)) ∧
    (s.cmd.input.length < 8 → exec (.decode sd) s =
      .next (s.succeeded (s.stores.set sd.toNat { words := [0] }) 64 [] [])) ∧
    (8 ≤ s.cmd.input.length → s.cmd.input.length / 8 ≤ s.cfg.maxWords →
      ∃ (ws : List Word) (r : Word), exec (.decode sd) s =
          .next (s.succeeded (s.stores.set sd.toNat { words := ws }) r [] []) ∧
        ws.length = s.cmd.input.length / 8 ∧ r.toNat = ws.length * 64 ∧
        ∀ k < ws.length, ∀ j < 8, s.cmd.input[8 * k + j]? = some ((ws.getD k 0).extractLsb' (8 * j) 8))

/-- Round trip from a store (41_serialization.md R144): DECODE of a store's image into any slot, then EQUALS with the
store, gives 1. -/
def Obligations.DecodedImageEqualsItsStore : Prop :=
  ∀ (s : State) (a d : Slot) (c c' : Command), s.storesOk → s.cfg.slotLegal a = true → s.cfg.slotLegal d = true →
    ∃ t, exec (.encode a) s = .next t ∧
      (c.input = t.resp.outb → ∃ u v, exec (.decode d) (t.latch c) = .next u ∧
        exec (.equals d a) (u.latch c') = .next v ∧ v.resp.r = 1)

/-- Round trip from bytes (41_serialization.md R147): DECODE then ENCODE gives the input without its trailing remainder;
fewer than 8 bytes give eight zero bytes. -/
def Obligations.EncodeAfterDecodeDropsRemainder : Prop :=
  ∀ (s : State) (sd : Slot) (c : Command), s.storesOk → s.cfg.slotLegal sd = true →
    s.cmd.input.length ≤ 8 * s.cfg.maxWords + 7 →
    ∃ t u, exec (.decode sd) s = .next t ∧ exec (.encode sd) (t.latch c) = .next u ∧
      u.resp.outb = if s.cmd.input.length < 8 then List.replicate 8 0
        else s.cmd.input.take (8 * (s.cmd.input.length / 8))

/-- The bit view survives the round trip (41_serialization.md R148): GETBIT on the decoded store answers as GETBIT on the
store that was encoded, for every index in range. -/
def Obligations.BitViewSurvivesRoundTrip : Prop :=
  ∀ (s t u : State) (a d : Slot) (c g : Command), s.storesOk → s.cfg.slotLegal a = true → s.cfg.slotLegal d = true →
    exec (.encode a) s = .next t → c.input = t.resp.outb → exec (.decode d) (t.latch c) = .next u →
    g.a.toNat < s.wcAt a.toNat * 64 →
    ∃ x y, exec (.getbit a) (s.latch g) = .next x ∧ exec (.getbit d) (u.latch g) = .next y ∧
      x.resp.r = y.resp.r ∧ x.resp.err = 0 ∧ y.resp.err = 0

/-! ## MUX, INDEX, SETHASH, GETHASH -/

/-- MUX (42_index_mux.md R161): a digest longer than MUX_MAX_BYTES is DIGEST_TOO_LONG; else OUTS has one seed for each
complete 8-byte window, byte j of seed k is IN[8k + j], R is their number, exact wherever that fits R's 64 bits (a digest
below 2^67 bytes); no store changes. -/
def Obligations.MuxSplitsDigestIntoSeeds : Prop :=
  ∀ s : State,
    decode (wordOf 0x0A 0 0) = .ok .mux ∧
    (s.cfg.muxMaxBytes < s.cmd.input.length → exec .mux s = .next (s.failed 6)) ∧
    (s.cmd.input.length ≤ s.cfg.muxMaxBytes →
      ∃ (outs : List Word) (r : Word), exec .mux s = .next (s.succeeded s.stores r [] outs) ∧
        (s.cmd.input.length < 2 ^ 67 → r.toNat = outs.length) ∧ outs.length = s.cmd.input.length / 8 ∧
        ∀ k < outs.length, ∀ j < 8, s.cmd.input[8 * k + j]? = some ((outs.getD k 0).extractLsb' (8 * j) 8))

/-- Seed count (42_index_mux.md R162): a digest of 8 to 64 bytes gives 1 to 8 seeds, one of 32 bytes gives 4. -/
def Obligations.DigestGivesOneToEightSeeds : Prop :=
  ∀ s : State, s.cfg.muxMaxBytes = 64 → 8 ≤ s.cmd.input.length → s.cmd.input.length ≤ 64 →
    ∃ t, exec .mux s = .next t ∧ 1 ≤ t.resp.outs.length ∧ t.resp.outs.length ≤ 8 ∧
      (s.cmd.input.length = 32 → t.resp.outs.length = 4)

/-- Consistent byte order (42_index_mux.md R161, R164): in one build the same digest gives the same response, whatever
the stores, STATUS and operand A hold. -/
def Obligations.MuxDependsOnDigestAlone : Prop :=
  ∀ s s' : State, s.cfg = s'.cfg → s.cmd.input = s'.cmd.input →
    ∃ t t', exec .mux s = .next t ∧ exec .mux s' = .next t' ∧ t.resp = t'.resp

/-- INDEX (42_index_mux.md R166): R is A % size, exact and below the size; no store changes. -/
def Obligations.IndexIsSeedModSize : Prop :=
  ∀ (s : State) (sd : Slot) (st : Store), s.storesOk → s.holds sd st →
    decode (wordOf 0x0B sd 0) = .ok (.index sd) ∧
    ∃ r : Word, r.toNat = s.cmd.a.toNat % (st.wc * 64) ∧ r.toNat < st.wc * 64 ∧
      exec (.index sd) s = .next (s.succeeded s.stores r [] [])

/-- SETHASH (42_index_mux.md R167, R172): with idx = A % size, whose word index is below wc, the bit idx % 64 is ORed
into word idx / 64, and R is idx, exact. -/
def Obligations.SethashOrsTheSelectedBit : Prop :=
  ∀ (s : State) (sd : Slot) (st : Store) (idx : Nat), s.storesOk → s.holds sd st →
    idx = s.cmd.a.toNat % (st.wc * 64) →
    decode (wordOf 0x0C sd 0) = .ok (.sethash sd) ∧ idx / 64 < st.wc ∧
    ∃ r : Word, r.toNat = idx ∧ exec (.sethash sd) s = .next (s.succeeded (s.stores.set sd.toNat
      { words := st.words.set (idx / 64) (st.words.getD (idx / 64) 0 ||| ((1 : Word) <<< (idx % 64))) }) r [] [])

/-- SETHASH is SETBIT of the derived index (42_index_mux.md R173). -/
def Obligations.SethashIsSetbitOfDerivedIndex : Prop :=
  ∀ (s : State) (sd : Slot) (st : Store) (c : Command), s.storesOk → s.holds sd st →
    c.a.toNat = s.cmd.a.toNat % (st.wc * 64) →
    ∃ t u, exec (.sethash sd) s = .next t ∧ exec (.setbit sd) (s.latch c) = .next u ∧ t.stores = u.stores

/-- GETHASH (42_index_mux.md R175): R is the bit A % size of the store; never out of range; no store changes. -/
def Obligations.GethashReturnsTheSelectedBit : Prop :=
  ∀ (s : State) (sd : Slot) (st : Store), s.storesOk → s.holds sd st →
    decode (wordOf 0x0D sd 0) = .ok (.gethash sd) ∧
    exec (.gethash sd) s =
      .next (s.succeeded s.stores (if st.bit (s.cmd.a.toNat % (st.wc * 64)) then 1 else 0) [] [])

/-! ## What commands leave unchanged -/

/-- Every command changes the stores, STATUS and the response record, and nothing else: the build, the command record,
the outstanding commands, the pending responses and the hosts' side stay (10_state.md R26, R29). -/
def Obligations.CommandsChangeNothingElse : Prop :=
  ∀ (i : Instr) (s t : State), exec i s = .next t →
    t = { s with stores := t.stores, status := t.status, resp := t.resp }

/-- A command changes no slot but the one the access table lets it write (10_state.md R26). -/
def Obligations.CommandsWriteOnlyTheirSlot : Prop :=
  ∀ (i : Instr) (s t : State), exec i s = .next t →
    t.stores.length = s.stores.length ∧
    ∀ k, (∀ d, i.writes = some d → k ≠ d.toNat) → t.stores[k]? = s.stores[k]?

/-- Word count is fixed between constructions (40_bitstore.md R103): only NEW, DECODE and COPY into a slot change its
word count. COPY is among them as R103 and R119 have it; 10_state.md R22 names NEW and DECODE only, and following R103 is
the model's choice (log 22). -/
def Obligations.OnlyConstructionChangesWordCount : Prop :=
  ∀ (i : Instr) (s t : State), exec i s = .next t →
    ∀ k, (∀ d, i.rebuilds = some d → k ≠ d.toNat) → t.wcAt k = s.wcAt k

/-- Side effects and idempotency (20_memory.md R46): a read-only command changes STATUS and answers, and does nothing
else; repeating any command at once
leaves the same stores and gives the same response, failed commands included. -/
def Obligations.RepeatingACommandChangesNoStore : Prop :=
  ∀ (i : Instr) (s t : State), exec i s = .next t →
    (i.writes = none → t = { s with status := t.status, resp := t.resp }) ∧
    ∃ u, exec i t = .next u ∧ u.stores = t.stores ∧ u.resp = t.resp

/-- Runtime commands do not fail (60_exceptions.md R205): SETBIT, SETHASH and GETHASH on a legal slot, and MUX of a
digest of at most MUX_MAX_BYTES bytes, end with ERR = 0; ADD and TEST on them run to their end and record no error. ADD
and TEST are here the model's uninterrupted ones (log 15). -/
def Obligations.RuntimeCommandsDoNotFail : Prop :=
  ∀ (s : State) (sd : Slot), s.storesOk → s.cfg.slotLegal sd = true →
    (∀ i ∈ [Instr.setbit sd, Instr.sethash sd, Instr.gethash sd], ∃ t, exec i s = .next t ∧ t.resp.err = 0) ∧
    (s.cmd.input.length ≤ s.cfg.muxMaxBytes → ∃ t, exec .mux s = .next t ∧ t.resp.err = 0) ∧
    (∀ digest : List Byte, digest.length ≤ s.cfg.muxMaxBytes →
      (∃ t, s.hostAdd sd digest = .next t ∧ t.status >>> 8 = s.status >>> 8) ∧
      (∃ b t, s.hostTest sd digest = .next (b, t) ∧ t.status >>> 8 = s.status >>> 8))

/-! ## The filter laws -/

/-- No false negatives across hosts (20_memory.md R55): after SETHASH sd, x and any number of steps of any hosts, none
of them a reset or a NEW, DECODE or COPY into sd, GETHASH sd, x returns 1; the same for SETBIT and GETBIT of an in-range
index. The only commands that can clear a bit of a store are NEW, DECODE and COPY into it. The steps are those of the
model's step relation, any open move in any order (logs 4, 5, 21). -/
def Obligations.NoFalseNegatives : Prop :=
  ∀ (s t u : State) (sd : Slot) (k : Nat) (c : Command), s.storesOk → s.cfg.slotLegal sd = true →
    QuietRun sd k t u → c.a = s.cmd.a →
    (exec (.sethash sd) s = .next t → ∃ v, exec (.gethash sd) (u.latch c) = .next v ∧ v.resp.r = 1) ∧
    (exec (.setbit sd) s = .next t → s.cmd.a.toNat < s.wcAt sd.toNat * 64 →
      ∃ v, exec (.getbit sd) (u.latch c) = .next v ∧ v.resp.r = 1) ∧
    (∀ (i : Instr) (v : State) (n j : Nat), exec i s = .next v → s.bitAt n j = true → v.bitAt n j = false →
      ∃ d, i.rebuilds = some d ∧ d.toNat = n)

/-- ADD runs to its end on a legal slot with a digest of at most MUX_MAX_BYTES bytes, and after it, and any number of
quiet steps of any hosts, TEST of the same digest gives true (30_encoding.md R71, R72; 42_index_mux.md R176 law 1). ADD
and TEST are here the model's uninterrupted ones (log 15); AddThenTestIsTrueAcrossHosts has them interleaved. -/
def Obligations.AddThenTestIsTrue : Prop :=
  ∀ (s : State) (sd : Slot) (digest : List Byte), s.storesOk → s.cfg.slotLegal sd = true →
    digest.length ≤ s.cfg.muxMaxBytes →
    ∃ t, s.hostAdd sd digest = .next t ∧
      ∀ k u, QuietRun sd k t u → ∃ v, u.hostTest sd digest = .next (true, v)

/-- Once ADD of a digest has completed, every later TEST of it gives true, whichever hosts they belong to and whatever
other commands fall between theirs, none a reset or a NEW, DECODE or COPY into the slot; and no command of the two fails
(42_index_mux.md R176 laws 1 and 3; 30_encoding.md R71, R72; 20_memory.md R50; 60_exceptions.md R205). The runs are those
of the model's step relation (logs 4, 5, 21). -/
def Obligations.AddThenTestIsTrueAcrossHosts : Prop :=
  ∀ (s t u v : State) (sd : Slot) (digest : List Byte) (g h k : Nat) (added tested : List (Command × Response))
    (answer : Bool), s.storesOk → s.cfg.slotLegal sd = true → digest.length ≤ s.cfg.muxMaxBytes →
    HostRun (Move.keeps sd) g added s t → isAddRecord sd digest added = true → QuietRun sd k t u →
    HostRun (Move.keeps sd) h tested u v → testRecordAnswer sd digest tested = some answer →
    answer = true ∧ ∀ e ∈ added ++ tested, e.2.err = 0

/-- A second ADD of the same digest changes no store (42_index_mux.md R176 laws 2 and 3). Alone, with no other command in
or between the two, it leaves the stores as they were. Across hosts, after one ADD and at any point of any run in which no
reset and no NEW, DECODE or COPY into the slot falls, whatever other commands do: a step that performs a command of that
ADD, its MUX or one of its SETHASH, for any host, leaves every store as it was; and any further ADD of the digest consists
of these commands. A digest above MUX_MAX_BYTES, which sets no bit, is among those it holds for (log 15); the runs are
those of the model's step relation (logs 4, 5, 21). -/
def Obligations.SecondAddChangesNoStore : Prop :=
  ∀ (s t : State) (sd : Slot) (digest : List Byte), s.storesOk → s.cfg.slotLegal sd = true →
    (s.hostAdd sd digest = .next t → ∃ u, t.hostAdd sd digest = .next u ∧ u.stores = t.stores) ∧
    ∀ (u v : State) (g k : Nat) (added : List (Command × Response)),
      HostRun (Move.keeps sd) g added s t → isAddRecord sd digest added = true → QuietRun sd k t u →
      (∀ q : Request, q.cmd ∈ added.map Prod.fst → OpenStep u (some (.perform q)) v → v.stores = u.stores) ∧
      (∀ (h : Nat) (again : List (Command × Response)), HostRun (Move.keeps sd) h again u v →
        isAddRecord sd digest again = true → again.map Prod.fst = added.map Prod.fst)

/-- A digest of fewer than 8 bytes: ADD changes no store and TEST gives true (30_encoding.md R71, R72; a reading of the
source that 93_implementation_defined.md I6 marks as the spec's own, log 15). -/
def Obligations.ShortDigestAddsNothingAndTestsTrue : Prop :=
  ∀ (s : State) (sd : Slot) (digest : List Byte), digest.length < 8 → 8 ≤ s.cfg.muxMaxBytes →
    (∃ t, s.hostAdd sd digest = .next t ∧ t.stores = s.stores) ∧
    (∃ t, s.hostTest sd digest = .next (true, t) ∧ t.stores = s.stores)

/-! ## Reset, steps, hosts -/

/-- What reset leaves in every build: one zero word in each of N_STORES slots, STATUS = 0, no outstanding command and no
pending response (10_state.md R34). -/
def Obligations.ResetLeavesTheResetValues : Prop :=
  ∀ c : Config, (State.resetWith c).stores = List.replicate c.nStores { words := [0] } ∧
    (State.resetWith c).status = 0 ∧ (State.resetWith c).outstanding = [] ∧ (State.resetWith c).responses = []

/-- The invariant holds after reset, in every legal build and in the one that `State.reset` takes (10_state.md R23, R30,
R32, R34). -/
def Obligations.InvariantHoldsAtReset : Prop :=
  (∀ c : Config, c.legal → (State.resetWith c).Inv) ∧ State.reset.Inv

/-- Every step keeps the invariant: legal parameters, N_STORES slots of 1 to MAX_WORDS words each, STATUS with zero
reserved bits, a legal LAST_ERR whose sticky bit is set, and at most one command or response per host
(10_state.md R23, R30, R32). -/
def Obligations.EveryStepKeepsTheInvariant : Prop := ∀ s t : State, s.Inv → step s = .next t → t.Inv

/-- No trap and no stop: from every state that meets the invariant a step answers a next state (60_exceptions.md R200). -/
def Obligations.NoStepStops : Prop := ∀ s : State, s.Inv → ∃ t, step s = .next t

/-- A step that performs an outstanding command runs the command its word decodes to: exec of it, with the choice
counted (log 4), the request removed, the command registers loaded (log 3), and the response returned to its host; where
the word is rejected, the response is that of ILLEGAL_OPCODE or RESERVED_FIELD (30_encoding.md R64). -/
def Obligations.StepRunsTheDecodedCommand : Prop :=
  ∀ (s l : State) (q : Request), s.nextMove = some (.perform q) → l = (s.countChoice.dropRequest q).latch q.cmd →
    (∀ i, decode q.cmd.cw = .ok i → step s = match exec i l with
      | .next t => .next (t.respondTo q.host)
      | .fault f => .fault f
      | .refused r => .refused r) ∧
    (decode q.cmd.cw = .error .illegalOpcode → step s = .next ((l.failed 1).respondTo q.host)) ∧
    (decode q.cmd.cw = .error .reservedField → step s = .next ((l.failed 2).respondTo q.host))

/-- Exactly one response per command, to the host that issued it (10_state.md R29): performing a command takes it out of
the outstanding commands and adds its response to its host's port, and no other response is added or removed. -/
def Obligations.OneResponseToTheIssuingHost : Prop :=
  ∀ (s t : State) (q : Request), s.nextMove = some (.perform q) → step s = .next t →
    t.responses = s.responses ++ [{ host := q.host, resp := t.resp }] ∧ t.outstanding = s.outstanding.erase q ∧
      t.delivered = s.delivered

/-- The arbiter takes an outstanding command (10_state.md R32): a command that is performed was outstanding; where
commands are outstanding a move is made; a command outstanding alone, with nothing to come, is performed next. The moves
are the model's (logs 4, 5). -/
def Obligations.ArbiterTakesAnOutstandingCommand : Prop :=
  ∀ s : State, (∀ q, s.nextMove = some (.perform q) → q ∈ s.outstanding) ∧
    (s.outstanding ≠ [] → s.nextMove ≠ none) ∧
    (∀ q, s.outstanding = [q] → s.inputs = [] → s.nextMove = some (.perform q))

/-- The step relation may pick any host with an outstanding command (10_state.md R32): each of them can be performed
next; what `step` does is one of the steps of the relation; and every step of the relation keeps the invariant
(logs 4, 5, 21). -/
def Obligations.AnyOutstandingCommandMayBeNext : Prop :=
  ∀ s : State, s.Inv →
    (∀ q ∈ s.outstanding, ∃ t, OpenStep s (some (.perform q)) t) ∧
    (∀ t, step s = .next t → OpenStep s s.nextMove t) ∧
    (∀ m t, OpenStep s m t → t.Inv)

/-- A host issues only when it has no command outstanding and no response waiting, and then its command is outstanding
(10_state.md R32). -/
def Obligations.HostIssuesOnlyWhenFree : Prop :=
  ∀ (s : State) (h : Nat) (c : Command), s.nextMove = some (.input (.issue h c)) →
    (∀ q ∈ s.outstanding, q.host ≠ h) ∧ (∀ p ∈ s.responses, p.host ≠ h) ∧
    ∃ t, step s = .next t ∧ t.outstanding = s.outstanding ++ [{ host := h, cmd := c }] ∧ t.stores = s.stores ∧
      t.status = s.status ∧ t.responses = s.responses

/-- A host that accepts a response takes the one that waits for it (10_state.md R20, R29): it is delivered to the host as
it is and waits no more, and nothing else changes. The event is the model's (logs 4, 5), `delivered` its field (log 8). -/
def Obligations.HostAcceptsItsResponse : Prop :=
  ∀ (s : State) (h : Nat), s.hostsOk → s.nextMove = some (.input (.accept h)) →
    ∃ r : Response, { host := h, resp := r } ∈ s.responses ∧
      (∀ p ∈ s.responses.erase { host := h, resp := r }, p.host ≠ h) ∧
      step s = .next { s with
        choices := s.choices + 1, inputs := s.inputs.tail, responses := s.responses.erase { host := h, resp := r },
        delivered := s.delivered ++ [.response h r] }

/-- A response once returned never changes (10_state.md R29): what hosts received stays, and of the responses that wait
all stay in a step that adds to them at most, or one leaves and is what this step delivers, or a reset drops them.
`delivered` is the model's field (log 8), and that a reset drops waiting responses is its reading of R34 (log 7). -/
def Obligations.ReturnedResponsesNeverChange : Prop :=
  ∀ s t : State, step s = .next t → s.delivered <+: t.delivered ∧
    (s.responses <+: t.responses ∨
      (∃ p, s.responses.Perm (p :: t.responses) ∧ t.delivered = s.delivered ++ [.response p.host p.resp]) ∨
      s.nextMove = some (.input .reset))

/-- The reset input (70_reset_and_hazards.md R232): an outstanding command is discarded and no response is returned; what
performed commands left is overwritten by the reset values of R34 and R230, one zero word in every slot and STATUS = 0.
That a response which still waits is dropped undelivered is the model's reading (log 7), `delivered` its field (log 8). -/
def Obligations.ResetInputRestoresResetState : Prop :=
  ∀ s : State, s.nextMove = some (.input .reset) →
    ∃ t, step s = .next t ∧ t.stores = List.replicate s.cfg.nStores { words := [0] } ∧ t.status = 0 ∧
      t.outstanding = [] ∧ t.responses = [] ∧ t.delivered = s.delivered

/-- Where no command is outstanding and nothing is to come, the block waits unchanged (70_reset_and_hazards.md R231; that
waiting is a step to the same state is the model's choice, log 6). -/
def Obligations.IdleBlockWaits : Prop := ∀ s : State, s.outstanding = [] → s.inputs = [] → step s = .next s

/-- The end of a run (70_reset_and_hazards.md R238): a run that is over stays over; while no reset comes, every slot,
STATUS and the responses returned to each host (those it received, then one that waits for it) are final, and a host's
received responses only grow; where no response waits, every host's observation is final. What counts as over, and as
received, is the model's reading (log 19). -/
def Obligations.RunOverIsFinal : Prop :=
  ∀ s t : State, s.runOver → step s = .next t → t.runOver ∧
    (s.nextMove ≠ some (.input .reset) → t.stores = s.stores ∧ t.readStatus = s.readStatus ∧
      (∀ h, t.returned h = s.returned h) ∧ (∀ h, s.received h <+: t.received h) ∧
      (s.responses = [] → ∀ h, t.observe h = s.observe h))

/-- Forward progress (20_memory.md R52): in a run without end that is weakly fair over hosts with an outstanding command,
hosts issuing without end or not, every outstanding command is performed at some later step, or discarded by a reset.
The fairness is the premise R52 asks for; runs are those of the model's step relation (logs 4, 5, 14, 21). -/
def Obligations.FairRunsPerformEveryCommand : Prop :=
  ∀ (state : Nat → State) (move : Nat → Option Move), (state 0).Inv → OpenRun state move → WeaklyFair state move →
    ∀ (k : Nat) (q : Request), q ∈ (state k).outstanding →
      ∃ j, k ≤ j ∧ (move j = some (.perform q) ∨ move j = some (.input .reset))

/-- Every outstanding command is eventually performed, or discarded by a reset, whatever the arbiter's choices
(20_memory.md R52): where finitely many events are still to come, as in every state of the model (log 5), the set of
outstanding commands is empty after a bounded number of steps. No fairness is assumed (log 14). -/
def Obligations.OutstandingCommandsAreEventuallyPerformed : Prop :=
  ∀ s : State, s.Inv → ∀ k, 2 * s.inputs.length + s.outstanding.length ≤ k →
    ∃ t, Host.Core.run Sys2Proof.core k s = .next t ∧ t.outstanding = []
end

