-- ==== Sys2Proof/Laws/Bytes.lean ====
section
/-! SUPPORT. Byte order: a word and its eight bytes, a list of words and its image (00_scope.md R8, 41_serialization.md
R141, R142). -/

namespace Sys2Proof.Machine

@[simp] theorem le8_length (w : Word) : (le8 w).length = 8 := by simp [le8]

/-- Byte j of LE8 is bits 8j+7 : 8j (00_scope.md R8). -/
theorem le8_getElem? (w : Word) {j : Nat} (h : j < 8) : (le8 w)[j]? = some (w.extractLsb' (8 * j) 8) := by
  simp [le8, h]

/-- Digit j of a little-endian number in base 256 is byte j. -/
theorem leNat_digit (bs : List Byte) (j : Nat) (h : j < bs.length) : leNat bs / 256 ^ j % 256 = bs[j].toNat := by
  induction bs generalizing j with
  | nil => simp at h
  | cons b bs ih =>
    have hb := b.isLt
    cases j with
    | zero => simp only [leNat, pow_zero, Nat.div_one, List.getElem_cons_zero]; omega
    | succ j =>
      have hj : j < bs.length := by simpa using h
      have : (b.toNat + 256 * leNat bs) / 256 = leNat bs := by omega
      rw [leNat, pow_succ', ← Nat.div_div_eq_div_mul, this, ih j hj, List.getElem_cons_succ]

/-- Byte j of LE64 of eight bytes is the list's byte j (00_scope.md R8). -/
theorem le64_byte (bs : List Byte) (h8 : bs.length = 8) (j : Nat) (h : j < 8) :
    (le64 bs).extractLsb' (8 * j) 8 = bs[j]'(by omega) := by
  apply BitVec.eq_of_toNat_eq
  rw [BitVec.extractLsb'_toNat, le64, BitVec.toNat_ofNat, Nat.shiftRight_eq_div_pow, ← leNat_digit bs j (by omega)]
  have e : (256 : Nat) ^ j = 2 ^ (8 * j) := by rw [Nat.pow_mul]
  rw [e]
  have hm : 2 ^ 64 = 2 ^ (8 * j) * 2 ^ (64 - 8 * j) := by rw [← Nat.pow_add]; congr 1; omega
  rw [hm, Nat.mod_mul_right_div_self]
  have hd : (256 : Nat) ∣ 2 ^ (64 - 8 * j) := by
    rw [show (256 : Nat) = 2 ^ 8 by norm_num]; exact Nat.pow_dvd_pow 2 (by omega)
  exact Nat.mod_mod_of_dvd _ hd

/-- Two words with the same eight bytes are the same word. -/
theorem word_eq_of_bytes {v w : Word} (h : ∀ j < 8, v.extractLsb' (8 * j) 8 = w.extractLsb' (8 * j) 8) : v = w := by
  apply BitVec.eq_of_getLsbD_eq
  intro i hi
  have := congrArg (fun b => b.getLsbD (i % 8)) (h (i / 8) (by omega))
  simpa [BitVec.getLsbD_extractLsb', Nat.mod_lt, Nat.div_add_mod] using this

@[simp] theorem parseWords_length (bs : List Byte) : (parseWords bs).length = bs.length / 8 := by simp [parseWords]

/-- Byte j of parsed word k is byte 8k + j (41_serialization.md R142). -/
theorem parseWords_byte (bs : List Byte) {k j : Nat} (hk : k < bs.length / 8) (hj : j < 8) :
    bs[8 * k + j]? = some (((parseWords bs).getD k 0).extractLsb' (8 * j) 8) := by
  have h8 : ((bs.drop (8 * k)).take 8).length = 8 := by simp; omega
  have : (parseWords bs).getD k 0 = le64 ((bs.drop (8 * k)).take 8) := by
    simp [parseWords, List.getD_eq_getElem?_getD, hk]
  rw [this, le64_byte _ h8 j hj, List.getElem_take, List.getElem_drop]
  exact List.getElem?_eq_getElem (by omega)

@[simp] theorem imageOf_length (ws : List Word) : (imageOf ws).length = 8 * ws.length := by
  induction ws with
  | nil => rfl
  | cons w ws ih => simp [imageOf] at ih ⊢; omega

/-- Byte 8k + j of an image is bits 8j+7 : 8j of word k (41_serialization.md R141). -/
theorem imageOf_byte (ws : List Word) {k j : Nat} (hk : k < ws.length) (hj : j < 8) :
    (imageOf ws)[8 * k + j]? = some ((ws.getD k 0).extractLsb' (8 * j) 8) := by
  induction ws generalizing k with
  | nil => simp at hk
  | cons w ws ih =>
    change (le8 w ++ imageOf ws)[8 * k + j]? = _
    cases k with
    | zero => rw [List.getElem?_append_left (by simp; omega)]; simpa using le8_getElem? w hj
    | succ k =>
      rw [List.getElem?_append_right (by simp; omega), le8_length, show 8 * (k + 1) + j - 8 = 8 * k + j by omega,
        ih (by simpa using hk)]
      simp [List.getD_eq_getElem?_getD]

/-- Parsing an image gives its words back. -/
theorem parseWords_imageOf (ws : List Word) : parseWords (imageOf ws) = ws := by
  apply List.ext_getElem (by simp)
  intro k h1 h2
  have hk : k < (imageOf ws).length / 8 := by simpa using h1
  apply word_eq_of_bytes
  intro j hj
  have a := parseWords_byte (imageOf ws) hk hj
  rw [imageOf_byte ws h2 hj] at a
  simpa [List.getD_eq_getElem?_getD, h1, h2] using (Option.some.inj a).symm

/-- The image of parsed words is the input without its trailing remainder. -/
theorem imageOf_parseWords (bs : List Byte) : imageOf (parseWords bs) = bs.take (8 * (bs.length / 8)) := by
  apply List.ext_getElem?
  intro n
  rcases Nat.lt_or_ge n (8 * (bs.length / 8)) with h | h
  · have hk : n / 8 < bs.length / 8 := by omega
    have e : 8 * (n / 8) + n % 8 = n := by omega
    have a := imageOf_byte (parseWords bs) (k := n / 8) (j := n % 8) (by simpa using hk) (by omega)
    rw [← parseWords_byte bs hk (by omega), e] at a
    rw [a, List.getElem?_take_of_lt h]
  · rw [List.getElem?_eq_none (by simpa using h), List.getElem?_eq_none (by simp; omega)]

end Sys2Proof.Machine
end

