-- ==== Sys2Proof/Laws/Encoding.lean ====
section
/-! SUPPORT. The fields of a laid-out command word are the values it was laid out from (30_encoding.md R60). -/

namespace Sys2Proof

theorem cwOp_layout (op : BitVec 8) (sd ss : Slot) : cwOp (layout op sd ss) = op := by
  apply BitVec.eq_of_getLsbD_eq; intro i hi
  simp only [cwOp, layout, BitVec.getLsbD_extractLsb', BitVec.getLsbD_append]
  simp [hi]

theorem cwSd_layout (op : BitVec 8) (sd ss : Slot) : cwSd (layout op sd ss) = sd := by
  apply BitVec.eq_of_getLsbD_eq; intro i hi
  simp only [cwSd, layout, BitVec.getLsbD_extractLsb', BitVec.getLsbD_append]
  simp [hi]

theorem cwSs_layout (op : BitVec 8) (sd ss : Slot) : cwSs (layout op sd ss) = ss := by
  apply BitVec.eq_of_getLsbD_eq; intro i hi
  simp only [cwSs, layout, BitVec.getLsbD_extractLsb', BitVec.getLsbD_append]
  simp [hi, show ¬ 12 + i < 8 by omega, show ¬ 12 + i - 8 < 4 by omega, show 12 + i - 8 - 4 = i by omega]

theorem cwRsv_layout (op : BitVec 8) (sd ss : Slot) : cwRsv (layout op sd ss) = 0 := by
  apply BitVec.eq_of_getLsbD_eq; intro i hi
  simp only [cwRsv, layout, BitVec.getLsbD_extractLsb', BitVec.getLsbD_append]
  simp [show ¬ 16 + i < 8 by omega, show ¬ 16 + i - 8 < 4 by omega]
  omega

end Sys2Proof
end

