-- ==== Sys2Proof/Laws/State.lean ====
section
/-! SUPPORT. One lemma per field that an update of the state leaves or sets, so that no proof unfolds an update. -/

namespace Sys2Proof.Machine

@[simp] theorem State.setStore_cfg (s : State) (slot : Slot) (st : Store) :
    (s.setStore slot st).cfg = s.cfg := rfl
@[simp] theorem State.setStore_stores (s : State) (slot : Slot) (st : Store) :
    (s.setStore slot st).stores = s.stores.set slot.toNat st := rfl
@[simp] theorem State.setStore_status (s : State) (slot : Slot) (st : Store) :
    (s.setStore slot st).status = s.status := rfl
@[simp] theorem State.setStore_cmd (s : State) (slot : Slot) (st : Store) :
    (s.setStore slot st).cmd = s.cmd := rfl
@[simp] theorem State.setStore_resp (s : State) (slot : Slot) (st : Store) :
    (s.setStore slot st).resp = s.resp := rfl
@[simp] theorem State.setStore_outstanding (s : State) (slot : Slot) (st : Store) :
    (s.setStore slot st).outstanding = s.outstanding := rfl
@[simp] theorem State.setStore_responses (s : State) (slot : Slot) (st : Store) :
    (s.setStore slot st).responses = s.responses := rfl
@[simp] theorem State.setStore_delivered (s : State) (slot : Slot) (st : Store) :
    (s.setStore slot st).delivered = s.delivered := rfl
@[simp] theorem State.setStore_inputs (s : State) (slot : Slot) (st : Store) :
    (s.setStore slot st).inputs = s.inputs := rfl
@[simp] theorem State.setStore_choices (s : State) (slot : Slot) (st : Store) :
    (s.setStore slot st).choices = s.choices := rfl

@[simp] theorem State.endCommand_cfg (s : State) (e : ErrCode) (r : Word) (outb : List Byte) (outs : List Word) :
    (s.endCommand e r outb outs).cfg = s.cfg := rfl
@[simp] theorem State.endCommand_stores (s : State) (e : ErrCode) (r : Word) (outb : List Byte) (outs : List Word) :
    (s.endCommand e r outb outs).stores = s.stores := rfl
@[simp] theorem State.endCommand_status (s : State) (e : ErrCode) (r : Word) (outb : List Byte) (outs : List Word) :
    (s.endCommand e r outb outs).status = statusAfter s.status e := rfl
@[simp] theorem State.endCommand_cmd (s : State) (e : ErrCode) (r : Word) (outb : List Byte) (outs : List Word) :
    (s.endCommand e r outb outs).cmd = s.cmd := rfl
@[simp] theorem State.endCommand_resp (s : State) (e : ErrCode) (r : Word) (outb : List Byte) (outs : List Word) :
    (s.endCommand e r outb outs).resp = ⟨r, outb, outs, e.code⟩ := rfl
@[simp] theorem State.endCommand_outstanding (s : State) (e : ErrCode) (r : Word) (outb : List Byte) (outs : List Word) :
    (s.endCommand e r outb outs).outstanding = s.outstanding := rfl
@[simp] theorem State.endCommand_responses (s : State) (e : ErrCode) (r : Word) (outb : List Byte) (outs : List Word) :
    (s.endCommand e r outb outs).responses = s.responses := rfl
@[simp] theorem State.endCommand_delivered (s : State) (e : ErrCode) (r : Word) (outb : List Byte) (outs : List Word) :
    (s.endCommand e r outb outs).delivered = s.delivered := rfl
@[simp] theorem State.endCommand_inputs (s : State) (e : ErrCode) (r : Word) (outb : List Byte) (outs : List Word) :
    (s.endCommand e r outb outs).inputs = s.inputs := rfl
@[simp] theorem State.endCommand_choices (s : State) (e : ErrCode) (r : Word) (outb : List Byte) (outs : List Word) :
    (s.endCommand e r outb outs).choices = s.choices := rfl

@[simp] theorem State.raiseError_cfg (s : State) (e : ErrCode) :
    (s.raiseError e).cfg = s.cfg := rfl
@[simp] theorem State.raiseError_stores (s : State) (e : ErrCode) :
    (s.raiseError e).stores = s.stores := rfl
@[simp] theorem State.raiseError_status (s : State) (e : ErrCode) :
    (s.raiseError e).status = statusAfter s.status e := rfl
@[simp] theorem State.raiseError_cmd (s : State) (e : ErrCode) :
    (s.raiseError e).cmd = s.cmd := rfl
@[simp] theorem State.raiseError_resp (s : State) (e : ErrCode) :
    (s.raiseError e).resp = ⟨0, [], [], e.code⟩ := rfl
@[simp] theorem State.raiseError_outstanding (s : State) (e : ErrCode) :
    (s.raiseError e).outstanding = s.outstanding := rfl
@[simp] theorem State.raiseError_responses (s : State) (e : ErrCode) :
    (s.raiseError e).responses = s.responses := rfl
@[simp] theorem State.raiseError_delivered (s : State) (e : ErrCode) :
    (s.raiseError e).delivered = s.delivered := rfl
@[simp] theorem State.raiseError_inputs (s : State) (e : ErrCode) :
    (s.raiseError e).inputs = s.inputs := rfl
@[simp] theorem State.raiseError_choices (s : State) (e : ErrCode) :
    (s.raiseError e).choices = s.choices := rfl

@[simp] theorem State.latch_cfg (s : State) (c : Command) :
    (s.latch c).cfg = s.cfg := rfl
@[simp] theorem State.latch_stores (s : State) (c : Command) :
    (s.latch c).stores = s.stores := rfl
@[simp] theorem State.latch_status (s : State) (c : Command) :
    (s.latch c).status = s.status := rfl
@[simp] theorem State.latch_cmd (s : State) (c : Command) :
    (s.latch c).cmd = c := rfl
@[simp] theorem State.latch_resp (s : State) (c : Command) :
    (s.latch c).resp = s.resp := rfl
@[simp] theorem State.latch_outstanding (s : State) (c : Command) :
    (s.latch c).outstanding = s.outstanding := rfl
@[simp] theorem State.latch_responses (s : State) (c : Command) :
    (s.latch c).responses = s.responses := rfl
@[simp] theorem State.latch_delivered (s : State) (c : Command) :
    (s.latch c).delivered = s.delivered := rfl
@[simp] theorem State.latch_inputs (s : State) (c : Command) :
    (s.latch c).inputs = s.inputs := rfl
@[simp] theorem State.latch_choices (s : State) (c : Command) :
    (s.latch c).choices = s.choices := rfl

@[simp] theorem State.dropRequest_cfg (s : State) (q : Request) :
    (s.dropRequest q).cfg = s.cfg := rfl
@[simp] theorem State.dropRequest_stores (s : State) (q : Request) :
    (s.dropRequest q).stores = s.stores := rfl
@[simp] theorem State.dropRequest_status (s : State) (q : Request) :
    (s.dropRequest q).status = s.status := rfl
@[simp] theorem State.dropRequest_cmd (s : State) (q : Request) :
    (s.dropRequest q).cmd = s.cmd := rfl
@[simp] theorem State.dropRequest_resp (s : State) (q : Request) :
    (s.dropRequest q).resp = s.resp := rfl
@[simp] theorem State.dropRequest_outstanding (s : State) (q : Request) :
    (s.dropRequest q).outstanding = s.outstanding.erase q := rfl
@[simp] theorem State.dropRequest_responses (s : State) (q : Request) :
    (s.dropRequest q).responses = s.responses := rfl
@[simp] theorem State.dropRequest_delivered (s : State) (q : Request) :
    (s.dropRequest q).delivered = s.delivered := rfl
@[simp] theorem State.dropRequest_inputs (s : State) (q : Request) :
    (s.dropRequest q).inputs = s.inputs := rfl
@[simp] theorem State.dropRequest_choices (s : State) (q : Request) :
    (s.dropRequest q).choices = s.choices := rfl

@[simp] theorem State.respondTo_cfg (s : State) (h : Nat) :
    (s.respondTo h).cfg = s.cfg := rfl
@[simp] theorem State.respondTo_stores (s : State) (h : Nat) :
    (s.respondTo h).stores = s.stores := rfl
@[simp] theorem State.respondTo_status (s : State) (h : Nat) :
    (s.respondTo h).status = s.status := rfl
@[simp] theorem State.respondTo_cmd (s : State) (h : Nat) :
    (s.respondTo h).cmd = s.cmd := rfl
@[simp] theorem State.respondTo_resp (s : State) (h : Nat) :
    (s.respondTo h).resp = s.resp := rfl
@[simp] theorem State.respondTo_outstanding (s : State) (h : Nat) :
    (s.respondTo h).outstanding = s.outstanding := rfl
@[simp] theorem State.respondTo_responses (s : State) (h : Nat) :
    (s.respondTo h).responses = s.responses ++ [⟨h, s.resp⟩] := rfl
@[simp] theorem State.respondTo_delivered (s : State) (h : Nat) :
    (s.respondTo h).delivered = s.delivered := rfl
@[simp] theorem State.respondTo_inputs (s : State) (h : Nat) :
    (s.respondTo h).inputs = s.inputs := rfl
@[simp] theorem State.respondTo_choices (s : State) (h : Nat) :
    (s.respondTo h).choices = s.choices := rfl

@[simp] theorem State.popInput_cfg (s : State) :
    (s.popInput).cfg = s.cfg := rfl
@[simp] theorem State.popInput_stores (s : State) :
    (s.popInput).stores = s.stores := rfl
@[simp] theorem State.popInput_status (s : State) :
    (s.popInput).status = s.status := rfl
@[simp] theorem State.popInput_cmd (s : State) :
    (s.popInput).cmd = s.cmd := rfl
@[simp] theorem State.popInput_resp (s : State) :
    (s.popInput).resp = s.resp := rfl
@[simp] theorem State.popInput_outstanding (s : State) :
    (s.popInput).outstanding = s.outstanding := rfl
@[simp] theorem State.popInput_responses (s : State) :
    (s.popInput).responses = s.responses := rfl
@[simp] theorem State.popInput_delivered (s : State) :
    (s.popInput).delivered = s.delivered := rfl
@[simp] theorem State.popInput_inputs (s : State) :
    (s.popInput).inputs = s.inputs.tail := rfl
@[simp] theorem State.popInput_choices (s : State) :
    (s.popInput).choices = s.choices := rfl

@[simp] theorem State.countChoice_cfg (s : State) :
    (s.countChoice).cfg = s.cfg := rfl
@[simp] theorem State.countChoice_stores (s : State) :
    (s.countChoice).stores = s.stores := rfl
@[simp] theorem State.countChoice_status (s : State) :
    (s.countChoice).status = s.status := rfl
@[simp] theorem State.countChoice_cmd (s : State) :
    (s.countChoice).cmd = s.cmd := rfl
@[simp] theorem State.countChoice_resp (s : State) :
    (s.countChoice).resp = s.resp := rfl
@[simp] theorem State.countChoice_outstanding (s : State) :
    (s.countChoice).outstanding = s.outstanding := rfl
@[simp] theorem State.countChoice_responses (s : State) :
    (s.countChoice).responses = s.responses := rfl
@[simp] theorem State.countChoice_delivered (s : State) :
    (s.countChoice).delivered = s.delivered := rfl
@[simp] theorem State.countChoice_inputs (s : State) :
    (s.countChoice).inputs = s.inputs := rfl
@[simp] theorem State.countChoice_choices (s : State) :
    (s.countChoice).choices = s.choices + 1 := rfl

@[simp] theorem State.assertReset_cfg (s : State) :
    (s.assertReset).cfg = s.cfg := rfl
@[simp] theorem State.assertReset_stores (s : State) :
    (s.assertReset).stores = List.replicate s.cfg.nStores Store.oneZero := rfl
@[simp] theorem State.assertReset_status (s : State) :
    (s.assertReset).status = 0 := rfl
@[simp] theorem State.assertReset_cmd (s : State) :
    (s.assertReset).cmd = Command.none := rfl
@[simp] theorem State.assertReset_resp (s : State) :
    (s.assertReset).resp = Response.none := rfl
@[simp] theorem State.assertReset_outstanding (s : State) :
    (s.assertReset).outstanding = [] := rfl
@[simp] theorem State.assertReset_responses (s : State) :
    (s.assertReset).responses = [] := rfl
@[simp] theorem State.assertReset_delivered (s : State) :
    (s.assertReset).delivered = s.delivered := rfl
@[simp] theorem State.assertReset_inputs (s : State) :
    (s.assertReset).inputs = s.inputs := rfl
@[simp] theorem State.assertReset_choices (s : State) :
    (s.assertReset).choices = s.choices := rfl

@[simp] theorem State.offer_cfg (s : State) (events : List Input) :
    (s.offer events).cfg = s.cfg := rfl
@[simp] theorem State.offer_stores (s : State) (events : List Input) :
    (s.offer events).stores = s.stores := rfl
@[simp] theorem State.offer_status (s : State) (events : List Input) :
    (s.offer events).status = s.status := rfl
@[simp] theorem State.offer_cmd (s : State) (events : List Input) :
    (s.offer events).cmd = s.cmd := rfl
@[simp] theorem State.offer_resp (s : State) (events : List Input) :
    (s.offer events).resp = s.resp := rfl
@[simp] theorem State.offer_outstanding (s : State) (events : List Input) :
    (s.offer events).outstanding = s.outstanding := rfl
@[simp] theorem State.offer_responses (s : State) (events : List Input) :
    (s.offer events).responses = s.responses := rfl
@[simp] theorem State.offer_delivered (s : State) (events : List Input) :
    (s.offer events).delivered = s.delivered := rfl
@[simp] theorem State.offer_choices (s : State) (events : List Input) :
    (s.offer events).choices = s.choices := rfl
@[simp] theorem State.offer_inputs (s : State) (events : List Input) :
    (s.offer events).inputs = s.inputs ++ events := rfl
@[simp] theorem State.offer_nil (s : State) : s.offer [] = s := by simp [State.offer]

end Sys2Proof.Machine
end

