-- ==== Sys2Proof/Laws/Ops.lean ====
section
/-! SUPPORT. What each shared operation can do, said once. -/

namespace Sys2Proof.Machine

/-! ## The end of a command -/

theorem statusAfter_ok (st : BitVec 32) : statusAfter st .ok = statusOkEnd st := by
  simp [statusAfter, statusOkEnd, stickyMask, ErrCode.code]

theorem statusAfter_err (st : BitVec 32) (e : ErrCode) (he : e ≠ .ok) :
    statusAfter st e = statusErrEnd st e.code.toNat := by
  cases e <;> first | exact absurd rfl he | rfl

theorem endCommand_ok (s : State) (r : Word) (outb : List Byte) (outs : List Word) :
    s.endCommand .ok r outb outs = s.succeeded s.stores r outb outs := by
  simp [State.endCommand, State.succeeded, statusAfter_ok, ErrCode.code]

theorem raiseError_eq_failed (s : State) (e : ErrCode) (he : e ≠ .ok) :
    s.raiseError e = s.failed e.code.toNat := by
  simp [State.raiseError, State.endCommand, State.failed, statusAfter_err s.status e he]

theorem fail_eq (s : State) (e : ErrCode) (he : e ≠ .ok) : s.fail e = .next (s.failed e.code.toNat) := by
  rw [State.fail, raiseError_eq_failed s e he]

theorem finish_eq (s : State) (r : Word) : s.finish r = .next (s.succeeded s.stores r [] []) := by
  rw [State.finish, endCommand_ok]

theorem setStore_finish_eq (s : State) (slot : Slot) (st : Store) (r : Word) :
    (s.setStore slot st).finish r = .next (s.succeeded (s.stores.set slot.toNat st) r [] []) := by
  rw [finish_eq]; rfl

/-! ## Reaching a slot -/

theorem withStore_of_holds {s : State} {slot : Slot} {st : Store} (h : s.holds slot st)
    (k : Store → StepResult) : s.withStore slot k = k st := by
  simp [State.withStore, h.1, h.2]

theorem withStore_of_illegal {s : State} {slot : Slot} (h : s.cfg.slotLegal slot = false)
    (k : Store → StepResult) : s.withStore slot k = s.fail .badStore := by
  simp [State.withStore, h]

/-- `withStore` answers a next state in two ways only: BAD_STORE, or the continuation at the slot's store. -/
theorem withStore_next {s t : State} {slot : Slot} {k : Store → StepResult} (h : s.withStore slot k = .next t) :
    (s.cfg.slotLegal slot = false ∧ t = s.failed 3) ∨ ∃ st, s.holds slot st ∧ k st = .next t := by
  unfold State.withStore at h
  split at h
  · rename_i hl
    split at h
    · rename_i st hst
      exact .inr ⟨st, ⟨hl, hst⟩, h⟩
    · exact absurd h (by simp)
  · rename_i hl
    rw [fail_eq s .badStore (by decide)] at h
    exact .inl ⟨by simpa using hl, (Host.Outcome.next.inj h).symm⟩

theorem withIndex_of_pos {s : State} {st : Store} (h : 0 < st.size) (k : Nat → StepResult) :
    s.withIndex st k = k (s.cmd.a.toNat % st.size) := by
  simp [State.withIndex, Nat.ne_of_gt h]

theorem withIndex_next {s t : State} {st : Store} {k : Nat → StepResult} (h : s.withIndex st k = .next t) :
    0 < st.size ∧ k (s.cmd.a.toNat % st.size) = .next t := by
  unfold State.withIndex at h
  split at h
  · exact absurd h (by simp)
  · exact ⟨by omega, h⟩

/-- In a state whose stores are as the spec allows them, a legal slot field reaches a legal store. -/
theorem State.storesOk.reach {s : State} (h : s.storesOk) {slot : Slot} (hl : s.cfg.slotLegal slot = true) :
    ∃ st, s.holds slot st ∧ st.legal s.cfg.maxWords := by
  have hlt : slot.toNat < s.stores.length := by
    rw [h.2.1]; simpa [Config.slotLegal] using hl
  exact ⟨_, ⟨hl, List.getElem?_eq_getElem hlt⟩, h.2.2 _ (List.getElem_mem hlt)⟩

theorem State.holds.unique {s : State} {slot : Slot} {x y : Store} (hx : s.holds slot x) (hy : s.holds slot y) :
    x = y := Option.some.inj (hx.2.symm.trans hy.2)

/-! ## Stores -/

@[simp] theorem Store.orBit_wc (st : Store) (i : Nat) : (st.orBit i).wc = st.wc := by
  simp [Store.orBit, Store.setWord, Store.wc]

@[simp] theorem Store.zeros_wc (n : Nat) : (Store.zeros n).wc = n := by simp [Store.zeros, Store.wc]

theorem Store.zeros_bit (n i : Nat) : (Store.zeros n).bit i = false := by
  simp only [Store.zeros, Store.bit, List.getD_eq_getElem?_getD, List.getElem?_replicate]
  split <;> simp

theorem Store.bitWord_eq (st : Store) (i : Nat) : st.bitWord i = if st.bit i then 1 else 0 := by
  apply BitVec.eq_of_getLsbD_eq
  intro j hj
  have h1 : (1 : Word).getLsbD j = decide (j = 0) := by
    rcases j with _ | j
    · rfl
    · simp [BitVec.getLsbD_one]
  have hb : (st.words.getD (i / 64) 0).getLsbD (i % 64) = st.bit i := rfl
  simp only [Store.bitWord, Store.word, wordIndex, bitOffset, BitVec.getLsbD_and, BitVec.getLsbD_ushiftRight, h1]
  by_cases hj0 : j = 0
  · subst hj0
    rw [Nat.add_zero, hb]
    cases st.bit i <;> rfl
  · cases st.bit i <;> simp [hj0]

theorem Store.bit_of_size_le (st : Store) {i : Nat} (h : st.size ≤ i) : st.bit i = false := by
  have : st.words.length ≤ i / 64 := by simp only [Store.size, Store.wc] at h; omega
  simp [Store.bit, List.getD_eq_getElem?_getD, this]

/-- Setting an in-range bit sets that bit and no other (20_memory.md R40). -/
theorem Store.bit_orBit (st : Store) {i : Nat} (h : i < st.size) (j : Nat) :
    (st.orBit i).bit j = (decide (j = i) || st.bit j) := by
  have hw : i / 64 < st.words.length := by simp only [Store.size, Store.wc] at h; omega
  have hone : ∀ b c, c < 64 → (oneBit b).getLsbD c = decide (c = b) := by
    intro b c hc
    simp only [oneBit, BitVec.getLsbD_shiftLeft]
    by_cases hcb : c = b
    · subst hcb; simp [hc]
    · rcases Nat.lt_or_ge c b with h' | h'
      · simp [h', hcb]
      · simp only [hcb, decide_false, Bool.and_eq_false_iff]
        right; simp; omega
  simp only [Store.bit, Store.orBit, Store.setWord, Store.word, wordIndex, bitOffset,
    List.getD_eq_getElem?_getD, List.getElem?_set]
  by_cases hk : i / 64 = j / 64
  · rw [← hk]
    simp only [if_true, hw, List.getElem?_eq_getElem, Option.getD_some, BitVec.getLsbD_or]
    rw [hone _ _ (Nat.mod_lt _ (by decide)), Bool.or_comm]
    congr 1
    simp only [decide_eq_decide]
    omega
  · rw [if_neg hk]
    have : j ≠ i := fun e => hk (by rw [e])
    simp [this]

/-! ## Moves -/

theorem nextMove_eq_none {s : State} : s.nextMove = none ↔ s.moves = [] := by
  unfold State.nextMove
  split
  · simp [*]
  · simp [*]
  · rename_i m ms hne hms
    rw [hms]
    simp only [reduceCtorEq, iff_false]
    rw [List.getElem?_eq_getElem (Nat.mod_lt _ (by simp))]
    simp

theorem nextMove_mem {s : State} {m : Move} (h : s.nextMove = some m) : m ∈ s.moves := by
  unfold State.nextMove at h
  split at h
  · exact absurd h (by simp)
  · rename_i m' hm
    rw [hm]; simpa using h.symm
  · rename_i m' ms hne hms
    rw [hms]; exact List.mem_of_getElem? h

theorem mem_moves_perform {s : State} {q : Request} : Move.perform q ∈ s.moves ↔ q ∈ s.outstanding := by
  simp only [State.moves, List.mem_append, List.mem_map, Move.perform.injEq, exists_eq_right, or_iff_left_iff_imp]
  intro h
  unfold State.inputMoves at h
  split at h
  · simp at h
  · split at h <;> simp at h

theorem mem_moves_input {s : State} {e : Input} :
    Move.input e ∈ s.moves ↔ s.inputs.head? = some e ∧ s.inputReady e = true := by
  simp only [State.moves, List.mem_append, List.mem_map, reduceCtorEq, and_false, exists_false, false_or]
  unfold State.inputMoves
  split
  · simp [*]
  · rename_i e' es he
    rw [he]
    simp only [List.head?_cons, Option.some.injEq]
    split
    · rename_i hr
      constructor
      · intro h; have : e = e' := by simpa using h
        subst this; exact ⟨rfl, hr⟩
      · rintro ⟨rfl, -⟩; simp
    · rename_i hr
      simp only [List.not_mem_nil, false_iff, not_and]
      rintro rfl; exact hr

/-- An open move that answers a next state performed an outstanding command and returned its response, or was the next
event from outside. -/
theorem doMove_cases {s t : State} {m : Move} (hm : m ∈ s.moves) (h : s.doMove m = .next t) :
    (∃ q u, m = .perform q ∧ q ∈ s.outstanding ∧
      (s.countChoice.dropRequest q).perform q.cmd = .next u ∧ t = u.respondTo q.host) ∨
    (∃ e, m = .input e ∧ s.inputs.head? = some e ∧ s.inputReady e = true ∧
      t = s.countChoice.popInput.applyInput e) := by
  cases m with
  | perform q =>
    simp only [State.doMove, State.runRequest] at h
    split at h
    · rename_i u hu
      exact .inl ⟨q, u, rfl, mem_moves_perform.1 hm, hu, (Host.Outcome.next.inj h).symm⟩
    · exact absurd h (by simp)
    · exact absurd h (by simp)
  | input e =>
    obtain ⟨head, ready⟩ := mem_moves_input.1 hm
    exact .inr ⟨e, rfl, head, ready, (Host.Outcome.next.inj h).symm⟩

/-- A step that answers a next state is one of three: nothing to do, an outstanding command performed and its response
returned, or the next event from outside. -/
theorem step_cases {s t : State} (h : step s = .next t) :
    (s.nextMove = none ∧ t = s) ∨
    (∃ q u, s.nextMove = some (.perform q) ∧ q ∈ s.outstanding ∧
      (s.countChoice.dropRequest q).perform q.cmd = .next u ∧ t = u.respondTo q.host) ∨
    (∃ e, s.nextMove = some (.input e) ∧ s.inputs.head? = some e ∧ s.inputReady e = true ∧
      t = s.countChoice.popInput.applyInput e) := by
  unfold step at h
  split at h
  · rename_i hn; exact .inl ⟨hn, (Host.Outcome.next.inj h).symm⟩
  · rename_i m hm
    rcases doMove_cases (nextMove_mem hm) h with ⟨q, u, rfl, r⟩ | ⟨e, rfl, r⟩
    · exact .inr (.inl ⟨q, u, hm, r⟩)
    · exact .inr (.inr ⟨e, hm, r⟩)

/-- A step of the step relation is one of three: more events to come, an outstanding command performed and its response
returned, or the next event from outside. -/
theorem openStep_cases {s t : State} {m : Option Move} (h : OpenStep s m t) :
    (m = none ∧ ∃ events, t = s.offer events) ∨
    (∃ q u, m = some (.perform q) ∧ q ∈ s.outstanding ∧
      (s.countChoice.dropRequest q).perform q.cmd = .next u ∧ t = u.respondTo q.host) ∨
    (∃ e, m = some (.input e) ∧ s.inputs.head? = some e ∧ s.inputReady e = true ∧
      t = s.countChoice.popInput.applyInput e) := by
  cases m with
  | none => exact .inl ⟨rfl, h⟩
  | some m =>
    rcases doMove_cases h.1 h.2 with ⟨q, u, rfl, r⟩ | ⟨e, rfl, r⟩
    · exact .inr (.inl ⟨q, u, rfl, r⟩)
    · exact .inr (.inr ⟨e, rfl, r⟩)

end Sys2Proof.Machine
end

