-- ==== Sys2Proof/Laws/Exec.lean ====
section
/-! SUPPORT. What any command can do, said once. -/

namespace Sys2Proof.Machine

theorem wordsForBits_pos (n : Nat) : 1 ≤ wordsForBits n := by
  unfold wordsForBits
  dsimp only
  split_ifs <;> omega

/-- Rounding bits to words is the ceiling, with at least one word (40_bitstore.md R101). -/
theorem wordsForBits_eq (n : Nat) : wordsForBits n = max 1 ((n + 63) / 64) := by
  unfold wordsForBits
  dsimp only
  split_ifs <;> first | omega | contradiction

theorem ofImage_wc (bytes : List Byte) : (Store.ofImage bytes).wc = max 1 (bytes.length / 8) := by
  unfold Store.ofImage
  split
  · simp [Store.oneZero, Store.wc, *]
  · simp only [Store.wc, parseWords, List.length_map, List.length_range]; omega

/-- How a command may change the store of the slot it writes: it builds a new one, of 1 to MAX_WORDS words where the
stores were as the spec allows them, or it sets one bit in range. -/
inductive StoreChange (i : Instr) (s : State) (d : Slot) (st : Store) : Store → Prop where
  | rebuilt (st' : Store) (by_rule : i.rebuilds = some d) (legal : s.storesOk → st'.legal s.cfg.maxWords) :
      StoreChange i s d st st'
  | bitSet (idx : Nat) (in_range : idx < st.size) : StoreChange i s d st (st.orBit idx)

/-- A command that answers a next state failed with one of the six codes, or succeeded and left the stores alone, or
succeeded and changed the store of the one slot it writes. -/
theorem exec_cases {i : Instr} {s t : State} (h : exec i s = .next t) :
    (∃ e : ErrCode, e ≠ .ok ∧ t = s.failed e.code.toNat) ∨
    (∃ r outb outs, t = s.succeeded s.stores r outb outs) ∨
    (∃ d st st' r, i.writes = some d ∧ s.holds d st ∧ StoreChange i s d st st' ∧
      t = s.succeeded (s.stores.set d.toNat st') r [] []) := by
  have bad : t = s.failed 3 → ∃ e : ErrCode, e ≠ .ok ∧ t = s.failed e.code.toNat :=
    fun e => ⟨.badStore, by decide, e⟩
  cases i with
  | new sd =>
    rcases withStore_next h with ⟨-, rfl⟩ | ⟨st, hst, h⟩
    · exact .inl (bad rfl)
    · dsimp only at h
      split at h
      · rw [fail_eq _ _ (by decide)] at h
        exact .inl ⟨.capacity, by decide, (Host.Outcome.next.inj h).symm⟩
      · rename_i hn
        rw [setStore_finish_eq] at h
        refine .inr (.inr ⟨sd, st, _, _, rfl, hst, .rebuilt _ rfl fun _ => ?_, (Host.Outcome.next.inj h).symm⟩)
        simp only [Store.legal, Store.zeros_wc]
        exact ⟨wordsForBits_pos _, by omega⟩
  | size sd =>
    rcases withStore_next h with ⟨-, rfl⟩ | ⟨st, hst, h⟩
    · exact .inl (bad rfl)
    · rw [finish_eq] at h; exact .inr (.inl ⟨_, _, _, (Host.Outcome.next.inj h).symm⟩)
  | setbit sd =>
    rcases withStore_next h with ⟨-, rfl⟩ | ⟨st, hst, h⟩
    · exact .inl (bad rfl)
    · split at h
      · rename_i hk
        rw [setStore_finish_eq] at h
        refine .inr (.inr ⟨sd, st, _, _, rfl, hst, .bitSet _ ?_, (Host.Outcome.next.inj h).symm⟩)
        simp only [wordIndex] at hk; simp only [Store.size]; omega
      · rw [finish_eq] at h; exact .inr (.inl ⟨_, _, _, (Host.Outcome.next.inj h).symm⟩)
  | getbit sd =>
    rcases withStore_next h with ⟨-, rfl⟩ | ⟨st, hst, h⟩
    · exact .inl (bad rfl)
    · split at h
      · rw [fail_eq _ _ (by decide)] at h
        exact .inl ⟨.getOutOfRange, by decide, (Host.Outcome.next.inj h).symm⟩
      · rw [finish_eq] at h; exact .inr (.inl ⟨_, _, _, (Host.Outcome.next.inj h).symm⟩)
  | count sd =>
    rcases withStore_next h with ⟨-, rfl⟩ | ⟨st, hst, h⟩
    · exact .inl (bad rfl)
    · rw [finish_eq] at h; exact .inr (.inl ⟨_, _, _, (Host.Outcome.next.inj h).symm⟩)
  | equals sd ss =>
    rcases withStore_next h with ⟨-, rfl⟩ | ⟨x, hx, h⟩
    · exact .inl (bad rfl)
    · rcases withStore_next h with ⟨-, rfl⟩ | ⟨y, hy, h⟩
      · exact .inl (bad rfl)
      · rw [finish_eq] at h; exact .inr (.inl ⟨_, _, _, (Host.Outcome.next.inj h).symm⟩)
  | copy sd ss =>
    rcases withStore_next h with ⟨-, rfl⟩ | ⟨x, hx, h⟩
    · exact .inl (bad rfl)
    · rcases withStore_next h with ⟨-, rfl⟩ | ⟨y, hy, h⟩
      · exact .inl (bad rfl)
      · rw [setStore_finish_eq] at h
        exact .inr (.inr ⟨sd, x, _, _, rfl, hx, .rebuilt _ rfl fun ok => ok.2.2 _ (List.mem_of_getElem? hy.2),
          (Host.Outcome.next.inj h).symm⟩)
  | encode sd =>
    rcases withStore_next h with ⟨-, rfl⟩ | ⟨st, hst, h⟩
    · exact .inl (bad rfl)
    · rw [endCommand_ok] at h; exact .inr (.inl ⟨_, _, _, (Host.Outcome.next.inj h).symm⟩)
  | decode sd =>
    rcases withStore_next h with ⟨-, rfl⟩ | ⟨st, hst, h⟩
    · exact .inl (bad rfl)
    · split at h
      · rw [fail_eq _ _ (by decide)] at h
        exact .inl ⟨.capacity, by decide, (Host.Outcome.next.inj h).symm⟩
      · rename_i hn
        rw [setStore_finish_eq] at h
        refine .inr (.inr ⟨sd, st, _, _, rfl, hst, .rebuilt _ rfl fun ok => ?_, (Host.Outcome.next.inj h).symm⟩)
        have : 1 ≤ s.cfg.maxWords := ok.1.2.2.1
        simp only [Store.legal, ofImage_wc]; omega
  | mux =>
    change execMux s = _ at h
    unfold execMux at h
    split at h
    · rw [fail_eq _ _ (by decide)] at h
      exact .inl ⟨.digestTooLong, by decide, (Host.Outcome.next.inj h).symm⟩
    · rw [endCommand_ok] at h; exact .inr (.inl ⟨_, _, _, (Host.Outcome.next.inj h).symm⟩)
  | index sd =>
    rcases withStore_next h with ⟨-, rfl⟩ | ⟨st, hst, h⟩
    · exact .inl (bad rfl)
    · have h := (withIndex_next h).2
      rw [finish_eq] at h; exact .inr (.inl ⟨_, _, _, (Host.Outcome.next.inj h).symm⟩)
  | sethash sd =>
    rcases withStore_next h with ⟨-, rfl⟩ | ⟨st, hst, h⟩
    · exact .inl (bad rfl)
    · obtain ⟨hpos, h⟩ := withIndex_next h
      rw [setStore_finish_eq] at h
      exact .inr (.inr ⟨sd, st, _, _, rfl, hst, .bitSet _ (Nat.mod_lt _ hpos), (Host.Outcome.next.inj h).symm⟩)
  | gethash sd =>
    rcases withStore_next h with ⟨-, rfl⟩ | ⟨st, hst, h⟩
    · exact .inl (bad rfl)
    · have h := (withIndex_next h).2
      rw [finish_eq] at h; exact .inr (.inl ⟨_, _, _, (Host.Outcome.next.inj h).symm⟩)

/-- Performing a command that answers a next state ended with the word's rejection, or ran the decoded command. -/
theorem perform_cases {s t : State} {c : Command} (h : s.perform c = .next t) :
    (∃ e, decode c.cw = .error e ∧ t = (s.latch c).failed (rejectError e).code.toNat) ∨
    ∃ i, decode c.cw = .ok i ∧ exec i (s.latch c) = .next t := by
  unfold State.perform at h
  split at h
  · rename_i e he
    rw [fail_eq _ _ (by cases e <;> decide)] at h
    exact .inl ⟨e, he, (Host.Outcome.next.inj h).symm⟩
  · rename_i i hi; exact .inr ⟨i, hi, h⟩

end Sys2Proof.Machine
end

