-- ==== Sys2Proof/Laws/PerInstr.lean ====
section
/-! SUPPORT. Facts about every command as syntax, one lemma per constructor. -/

namespace Sys2Proof.Laws.EncodedFields

/-- The word of a command has a legal opcode, a zero RSV field, and its first slot in SD (30_encoding.md R60, R62). -/
def Statement (i : Instr) : Prop :=
  1 ≤ (cwOp (encode i)).toNat ∧ (cwOp (encode i)).toNat ≤ 13 ∧ cwRsv (encode i) = 0 ∧
    cwSd (encode i) = i.slots.headD 0

theorem of_layout (i : Instr) (op : BitVec 8) (sd ss : Slot) (he : encode i = layout op sd ss)
    (hop : 1 ≤ op.toNat ∧ op.toNat ≤ 13) (hsd : sd = i.slots.headD 0) : Statement i := by
  rw [Statement, he, cwOp_layout, cwRsv_layout, cwSd_layout]
  exact ⟨hop.1, hop.2, rfl, hsd⟩

theorem new (sd : Slot) : Statement (.new sd) := of_layout _ 0x01 sd 0 rfl (by decide) rfl

theorem size (sd : Slot) : Statement (.size sd) := of_layout _ 0x02 sd 0 rfl (by decide) rfl

theorem setbit (sd : Slot) : Statement (.setbit sd) := of_layout _ 0x03 sd 0 rfl (by decide) rfl

theorem getbit (sd : Slot) : Statement (.getbit sd) := of_layout _ 0x04 sd 0 rfl (by decide) rfl

theorem count (sd : Slot) : Statement (.count sd) := of_layout _ 0x05 sd 0 rfl (by decide) rfl

theorem equals (sd ss : Slot) : Statement (.equals sd ss) := of_layout _ 0x06 sd ss rfl (by decide) rfl

theorem copy (sd ss : Slot) : Statement (.copy sd ss) := of_layout _ 0x07 sd ss rfl (by decide) rfl

theorem encode (sd : Slot) : Statement (.encode sd) := of_layout _ 0x08 sd 0 rfl (by decide) rfl

theorem decode (sd : Slot) : Statement (.decode sd) := of_layout _ 0x09 sd 0 rfl (by decide) rfl

theorem mux : Statement .mux := of_layout _ 0x0A 0 0 rfl (by decide) rfl

theorem index (sd : Slot) : Statement (.index sd) := of_layout _ 0x0B sd 0 rfl (by decide) rfl

theorem sethash (sd : Slot) : Statement (.sethash sd) := of_layout _ 0x0C sd 0 rfl (by decide) rfl

theorem gethash (sd : Slot) : Statement (.gethash sd) := of_layout _ 0x0D sd 0 rfl (by decide) rfl

end Sys2Proof.Laws.EncodedFields
end

