-- ==== Sys2Proof/Machine/Assembler.lean ====
section
/-! DEFINITION. The assembler syntax of 30_encoding.md R70: one line of text to a command record, a raw command word,
or one of the two pseudo-instructions (log 17). A line is a list of characters. -/

namespace Sys2Proof.Machine

/-- What one line of assembler text says (30_encoding.md R70, R71, R72). -/
inductive AsmLine where
  /-- one of the 13 commands -/
  | command (c : Command)
  /-- `.cw`: a raw command word -/
  | raw (c : Command)
  /-- pseudo-instruction ADD -/
  | add (sd : Slot) (digest : List Byte)
  /-- pseudo-instruction TEST -/
  | test (sd : Slot) (digest : List Byte)
  deriving DecidableEq, Repr

/-- Split a line into tokens: blanks separate tokens, and a comma or a square bracket is a token by itself. -/
def tokens (line : List Char) : List (List Char) :=
  (line.foldr (fun c acc =>
    if c = ' ' ∨ c = '\t' then [] :: acc
    else if c = ',' ∨ c = '[' ∨ c = ']' then [] :: [c] :: acc
    else match acc with
      | [] => [[c]]
      | t :: ts => (c :: t) :: ts) [[]]).filter (fun t => !t.isEmpty)

/-- The text before a comment (30_encoding.md R70: `;` starts a comment). -/
def stripComment (line : List Char) : List Char := line.takeWhile fun c => c != ';'

/-- The value of a digit below the base. -/
def digitValue (base : Nat) (c : Char) : Option Nat :=
  let n := c.toNat
  let v := if 48 ≤ n ∧ n ≤ 57 then n - 48
    else if 97 ≤ n ∧ n ≤ 102 then n - 87
    else if 65 ≤ n ∧ n ≤ 70 then n - 55
    else base
  if v < base then some v else none

/-- The value of a non-empty row of digits, most significant first. -/
def digitsValue (base : Nat) (cs : List Char) : Option Nat :=
  if cs.isEmpty then none
  else cs.foldl (fun acc c =>
    match acc, digitValue base c with
    | some a, some d => some (a * base + d)
    | _, _ => none) (some 0)

/-- `<n>`: a decimal number, or hexadecimal with a 0x prefix (30_encoding.md R70). -/
def numberValue : List Char → Option Nat
  | '0' :: 'x' :: ds => digitsValue 16 ds
  | ds => digitsValue 10 ds

/-- `<n>` within a bound (30_encoding.md R70: 0 to 2^64 - 1 for A, 32 bits for a command word). -/
def boundedNumber (bits : Nat) (t : List Char) : Option Nat :=
  match numberValue t with
  | some n => if n < 2 ^ bits then some n else none
  | none => none

/-- `s0` to `s15` (30_encoding.md R70). -/
def slotOf : List Char → Option Slot
  | 's' :: ds =>
    match digitsValue 10 ds with
    | some n => if n < 16 then some (BitVec.ofNat 4 n) else none
    | none => none
  | _ => none

/-- The bytes of `[<bytes>]` after its opening bracket: two-digit hexadecimal bytes up to the closing bracket, which
ends the line's text; `×n` after a byte gives it n times (30_encoding.md R70). -/
def bytesOf : List (List Char) → Option (List Byte)
  | [[']']] => some []
  | [a, b] :: ('×' :: ds) :: rest =>
    match digitsValue 16 [a, b], digitsValue 10 ds, bytesOf rest with
    | some v, some n, some bs => some (List.replicate n (BitVec.ofNat 8 v) ++ bs)
    | _, _, _ => none
  | [a, b] :: rest =>
    match digitsValue 16 [a, b], bytesOf rest with
    | some v, some bs => some (BitVec.ofNat 8 v :: bs)
    | _, _ => none
  | _ => none

/-- Look a mnemonic up in a list of mnemonics and what they stand for. -/
def byMnemonic {α : Type} (m : List Char) (table : List (String × α)) : Option α :=
  (table.find? fun e => e.1.toList == m).map Prod.snd

/-- The mnemonics whose line is `sD` (30_encoding.md R70). -/
def slotLines : List (String × (Slot → Instr)) :=
  [("SIZE", .size), ("COUNT", .count), ("ENCODE", .encode)]

/-- The mnemonics whose line is `sD, <n>` (30_encoding.md R70). -/
def slotNumberLines : List (String × (Slot → Instr)) :=
  [("NEW", .new), ("SETBIT", .setbit), ("GETBIT", .getbit), ("INDEX", .index), ("SETHASH", .sethash),
   ("GETHASH", .gethash)]

/-- The mnemonics whose line is `sD, sS` (30_encoding.md R70). -/
def slotSlotLines : List (String × (Slot → Slot → Instr)) :=
  [("EQUALS", .equals), ("COPY", .copy)]

/-- The mnemonics whose line is `sD, [<bytes>]`: DECODE, and the pseudo-instructions (30_encoding.md R70 to R72). -/
def slotBytesLines : List (String × (Slot → List Byte → AsmLine)) :=
  [("DECODE", fun sd bs => .command { cw := encode (.decode sd), a := 0, input := bs }),
   ("ADD", .add), ("TEST", .test)]

/-- The command record of a command and its number; an operand that a line does not write is 0 or empty
(30_encoding.md R70). -/
def commandLine (i : Instr) (a : Nat) : AsmLine :=
  .command { cw := encode i, a := BitVec.ofNat 64 a, input := [] }

/-- `sD, <n>` or `sD, sS`, by mnemonic (30_encoding.md R70). -/
def twoOperands (m d x : List Char) : Option AsmLine :=
  match slotOf d, byMnemonic m slotNumberLines, byMnemonic m slotSlotLines with
  | some sd, some f, _ => (boundedNumber 64 x).map fun n => commandLine (f sd) n
  | some sd, none, some f => (slotOf x).map fun ss => commandLine (f sd ss) 0
  | _, _, _ => none

/-- `sD, [<bytes>]`, by mnemonic (30_encoding.md R70). -/
def slotBytes (m d : List Char) (rest : List (List Char)) : Option AsmLine :=
  match slotOf d, byMnemonic m slotBytesLines, bytesOf rest with
  | some sd, some f, some bs => some (f sd bs)
  | _, _, _ => none

/-- `.cw <n>, <a>, [<bytes>]`, from its parts (30_encoding.md R70). -/
def rawLine (n a : List Char) (rest : List (List Char)) : Option AsmLine :=
  match boundedNumber 32 n, boundedNumber 64 a, bytesOf rest with
  | some w, some v, some bs => some (.raw { cw := BitVec.ofNat 32 w, a := BitVec.ofNat 64 v, input := bs })
  | _, _, _ => none

/-- One line of assembler text, none where it is no line of the syntax (30_encoding.md R70). -/
def assemble (line : List Char) : Option AsmLine :=
  match tokens (stripComment line) with
  | [m, x] =>
    if m = ".cw".toList then
      (boundedNumber 32 x).map fun w => .raw { cw := BitVec.ofNat 32 w, a := 0, input := [] }
    else match slotOf x, byMnemonic m slotLines with
      | some sd, some f => some (commandLine (f sd) 0)
      | _, _ => none
  | m :: ['['] :: rest =>
    if m = "MUX".toList then
      (bytesOf rest).map fun bs => .command { cw := encode .mux, a := 0, input := bs }
    else none
  | [m, d, [','], x] => twoOperands m d x
  | m :: d :: [','] :: ['['] :: rest => slotBytes m d rest
  | m :: n :: [','] :: a :: [','] :: ['['] :: rest => if m = ".cw".toList then rawLine n a rest else none
  | _ => none

end Sys2Proof.Machine
end

