-- ==== Sys2Proof/Tests/Slice0.lean ====
section
/-! SUPPORT. Tests. Expected results are the spec's: the rules' worked examples and 95_test_vectors.md. -/

namespace Sys2Proof.Tests

open Sys2Proof.Machine

/-! ## Helpers -/

/-- The standard build with these words in slots 0 and 1. -/
def two (w0 w1 : List Word) : State := { State.reset with stores := [⟨w0⟩, ⟨w1⟩] }

/-- A command record. -/
def cmd (cw : CmdWord) (a : Word) (input : List Byte) : Command := { cw := cw, a := a, input := input }

/-- Whether an answer is a next state that passes a check. -/
def passes (o : StepResult) (p : State → Bool) : Bool :=
  match o with
  | .next t => p t
  | .fault _ => false
  | .refused _ => false

/-- R and ERR of the response, and STATUS as read. -/
def answers (t : State) (r : Word) (err : BitVec 8) (status : BitVec 32) : Bool :=
  t.resp.r == r && t.resp.err == err && t.readStatus == status

/-- The words of slots 0 and 1. -/
def words (t : State) (w0 w1 : List Word) : Bool := t.stores == [⟨w0⟩, ⟨w1⟩]

/-! ## WellFormed: each check refuses an ill-formed term (30_encoding.md R61, N_STORES = 2) -/

theorem test_wf_accepts : (Instr.copy 1 0).wf Config.standard = true := by decide
theorem test_wf_refuses_sd : (Instr.new 2).wf Config.standard = false := by decide
theorem test_wf_refuses_sd_of_two : (Instr.copy 15 0).wf Config.standard = false := by decide
theorem test_wf_refuses_ss : (Instr.equals 0 2).wf Config.standard = false := by decide
theorem test_wf_mux_has_no_slot : Instr.mux.wf Config.standard = true := by decide
theorem test_config_refuses_17_stores : ¬ ({ Config.standard with nStores := 17 } : Config).legal := by decide
theorem test_config_refuses_2_pow_58_words : ¬ ({ Config.standard with maxWords := 2 ^ 58 } : Config).legal := by decide

/-! ## Decoding: each constructor by a word written out from 30_encoding.md R60 to R63 (RSV SS SD OP) -/

theorem test_decode_new : decode 0b00000000000000000000010100000001 = .ok (.new 5) := by decide
theorem test_decode_size : decode 0b00000000000000000000101000000010 = .ok (.size 10) := by decide
theorem test_decode_setbit : decode 0b00000000000000000000000100000011 = .ok (.setbit 1) := by decide
theorem test_decode_getbit : decode 0b00000000000000000000111100000100 = .ok (.getbit 15) := by decide
theorem test_decode_count : decode 0b00000000000000000000001000000101 = .ok (.count 2) := by decide
theorem test_decode_equals : decode 0b00000000000000000001000000000110 = .ok (.equals 0 1) := by decide
theorem test_decode_copy : decode 0b00000000000000001000000100000111 = .ok (.copy 1 8) := by decide
theorem test_decode_encode : decode 0b00000000000000000000010000001000 = .ok (.encode 4) := by decide
theorem test_decode_decode : decode 0b00000000000000000000000100001001 = .ok (.decode 1) := by decide
theorem test_decode_mux : decode 0b00000000000000000000000000001010 = .ok .mux := by decide
theorem test_decode_index : decode 0b00000000000000000000001100001011 = .ok (.index 3) := by decide
theorem test_decode_sethash : decode 0b00000000000000000000011000001100 = .ok (.sethash 6) := by decide
theorem test_decode_gethash : decode 0b00000000000000000000100100001101 = .ok (.gethash 9) := by decide

/-- 30_encoding.md R64, R67: opcodes 0x00, 0x0E, 0xFF; RSV wins over a bad slot, an illegal opcode over RSV; an unused
slot field (95_test_vectors.md 2.14). -/
theorem test_decode_errors :
    decode 0x00000000 = .error .illegalOpcode ∧ decode 0x0000000E = .error .illegalOpcode ∧
    decode 0x000000FF = .error .illegalOpcode ∧ decode 0x00FF0020 = .error .illegalOpcode ∧
    decode 0x00010001 = .error .reservedField ∧ decode 0x00001001 = .error .reservedField ∧
    decode 0x00FF0F03 = .error .reservedField ∧ decode 0x0000010A = .error .reservedField ∧
    decode 0x0000F00A = .error .reservedField := by decide

theorem test_encode_copy : encode (.copy 1 0) = 0x00000107 := by decide
theorem test_encode_equals : encode (.equals 0 1) = 0x00001006 := by decide
theorem test_table_word : decodeTableWord 32 0x00000103 = some (.setbit 1) := by decide

/-! ## Commands (95_test_vectors.md, section 2) -/

theorem test_new_rounds_up : passes ((two [0] [7]).perform (cmd 0x00000001 0x41 []))
    (fun t => answers t 128 0 0 && words t [0, 0] [7]) = true := by decide +kernel
theorem test_new_largest_request : passes ((two [5] [7]).perform (cmd 0x00000001 0xFFFFFFFFFFFFFFFF []))
    (fun t => answers t 0 4 0x0804 && words t [5] [7]) = true := by decide +kernel
theorem test_size_three_words : passes ((two [0, 0, 0] [0]).perform (cmd 0x00000002 0 []))
    (fun t => answers t 192 0 0) = true := by decide +kernel
theorem test_setbit_top_of_word : passes ((two [0, 0] [0]).perform (cmd 0x00000003 0x3F []))
    (fun t => answers t 0 0 0 && words t [0x8000000000000000, 0] [0]) = true := by decide +kernel
theorem test_setbit_at_size : passes ((two [0, 0] [0]).perform (cmd 0x00000003 0x80 []))
    (fun t => answers t 0 0 0 && words t [0, 0] [0]) = true := by decide +kernel
theorem test_getbit_last : passes ((two [0, 0x8000000000000000] [0]).perform (cmd 0x00000004 0x7F []))
    (fun t => answers t 1 0 0) = true := by decide +kernel
theorem test_getbit_at_size : passes ((two [0, 0] [0]).perform (cmd 0x00000004 0x80 []))
    (fun t => answers t 0 5 0x1005) = true := by decide +kernel
theorem test_count_two_bits : passes ((two [1, 0x8000000000000000] [0]).perform (cmd 0x00000005 0 []))
    (fun t => answers t 2 0 0) = true := by decide +kernel
theorem test_equals_sizes_differ : passes ((two [0] [0, 0]).perform (cmd 0x00001006 0 []))
    (fun t => answers t 0 0 0) = true := by decide +kernel
theorem test_equals_other_order : passes ((two [0x200] [0x200]).perform (cmd 0x00000106 0 []))
    (fun t => answers t 1 0 0) = true := by decide +kernel
theorem test_copy_takes_size : passes ((two [8, 0] [0, 0, 0, 0x100]).perform (cmd 0x00000107 0 []))
    (fun t => answers t 0 0 0 && words t [8, 0] [8, 0]) = true := by decide +kernel
theorem test_copy_bad_source : passes ((two [0] [0]).perform (cmd 0x00002107 0 []))
    (fun t => answers t 0 3 0x0403) = true := by decide +kernel
theorem test_encode_bit_9 : passes ((two [0x200] [0]).perform (cmd 0x00000008 0 []))
    (fun t => answers t 8 0 0 && t.resp.outb == [0x00, 0x02, 0, 0, 0, 0, 0, 0]) = true := by decide +kernel
theorem test_encode_word_order : passes ((two [0, 1] [0]).perform (cmd 0x00000008 0 []))
    (fun t => answers t 16 0 0 && t.resp.outb == [0, 0, 0, 0, 0, 0, 0, 0, 1, 0, 0, 0, 0, 0, 0, 0]) = true := by
  decide +kernel
theorem test_decode_drops_trailing : passes ((two [3] [0, 0]).perform
      (cmd 0x00000109 0 [0x01, 0, 0, 0, 0, 0, 0, 0x80, 0xff]))
    (fun t => answers t 64 0 0 && words t [3] [0x8000000000000001]) = true := by decide +kernel
theorem test_decode_five_words : passes ((two [2] [0]).perform (cmd 0x00000009 0 (List.replicate 40 0xff)))
    (fun t => answers t 0 4 0x0804 && words t [2] [0]) = true := by decide +kernel
theorem test_mux_drops_trailing : passes ((two [0] [0]).perform
      (cmd 0x0000000A 0 [0x10, 0x11, 0x12, 0x13, 0x14, 0x15, 0x16, 0x17, 0x18, 0x19, 0x1a]))
    (fun t => answers t 1 0 0 && t.resp.outs == [0x1716151413121110]) = true := by decide +kernel
theorem test_mux_too_long : passes ((two [0] [0]).perform (cmd 0x0000000A 0 (List.replicate 65 0xab)))
    (fun t => answers t 0 6 0x2006 && t.resp.outs == []) = true := by decide +kernel
theorem test_index_not_a_power_of_two : passes ((two [0, 0, 0] [0]).perform (cmd 0x0000000B 0xFFFFFFFFFFFFFFFF []))
    (fun t => answers t 63 0 0) = true := by decide +kernel
theorem test_index_high_seed : passes ((two [0, 0, 0] [0]).perform (cmd 0x0000000B 0x8000000000000000 []))
    (fun t => answers t 128 0 0) = true := by decide +kernel
theorem test_sethash_example : passes ((two [0, 0] [0]).perform (cmd 0x0000000C 0x123456789ABCDEF0 []))
    (fun t => answers t 112 0 0 && words t [0, 0x0001000000000000] [0]) = true := by decide +kernel
theorem test_gethash_same_index : passes ((two [2, 0] [0]).perform (cmd 0x0000000D 0x81 []))
    (fun t => answers t 1 0 0) = true := by decide +kernel
theorem test_gethash_clear : passes ((two [0, 0x0001000000000000] [0]).perform (cmd 0x0000000D 0xFFFFFFFFFFFFFFFF []))
    (fun t => answers t 0 0 0) = true := by decide +kernel

/-- STATUS accumulates (95_test_vectors.md 2.15): 0x3702, then NEW s0, 257, then COUNT s0. -/
theorem test_status_accumulates :
    passes (({ two [0] [0] with status := 0x3702 } : State).perform (cmd 0x00000001 0x101 []))
      (fun t => t.readStatus == 0x3F04) = true ∧
    passes (({ two [0] [0] with status := 0x3F04 } : State).perform (cmd 0x00000005 0 []))
      (fun t => t.readStatus == 0x3F00) = true := by decide +kernel

/-- An error priority of 60_exceptions.md R203: SETBIT with RSV ≠ 0 and SD = 15 is RESERVED_FIELD. -/
theorem test_priority : passes ((two [0] [0]).perform (cmd 0x00FF0F03 0 []))
    (fun t => answers t 0 2 0x0202) = true := by decide +kernel

/-- A TEST that stops at the first clear probe (95_test_vectors.md P1, digest B). -/
theorem test_host_test_stops : (match (two [2, 0x0001000000000001] [0]).hostTest 0
      [0xff, 0xff, 0xff, 0xff, 0xff, 0xff, 0xff, 0xff, 1, 0, 0, 0, 0, 0, 0, 0] with
    | .next (b, t) => !b && t.cmd.a == 0xFFFFFFFFFFFFFFFF
    | .fault _ => false
    | .refused _ => false) = true := by decide +kernel

/-! ## Steps -/

/-- The word placed runs as the first command after reset, and its response goes to its host's port. -/
theorem test_fetch_runs : passes (step (State.reset.withFetchWord 32 0x00000102))
    (fun t => answers t 64 0 0 && t.responses == [⟨0, t.resp⟩] && t.outstanding == []) = true := by decide +kernel

/-- With nothing placed the block waits (70_reset_and_hazards.md R231). -/
theorem test_reset_waits : passes (step State.reset) (fun t => t == State.reset) = true := by decide +kernel

/-- Reset discards an outstanding command without a response (70_reset_and_hazards.md R232). -/
theorem test_reset_discards :
    (({ two [1] [2, 3] with status := 0x1005, outstanding := [⟨0, cmd 0x00000005 0 []⟩] } : State).applyInput .reset)
      = State.reset := by decide +kernel

/-! ## Assembler lines (30_encoding.md R70) -/

theorem test_asm_setbit : assemble "SETBIT  s1, 0x41   ; a comment".toList = some (.command (cmd 0x00000103 0x41 [])) := by
  decide +kernel
theorem test_asm_copy : assemble "COPY s1, s0".toList = some (.command (cmd 0x00000107 0 [])) := by decide +kernel
theorem test_asm_decode : assemble "DECODE s1, [01 ff]".toList = some (.command (cmd 0x00000109 0 [1, 0xff])) := by
  decide +kernel
theorem test_asm_mux_repeat : assemble "MUX [55 ×3]".toList = some (.command (cmd 0x0000000A 0 [0x55, 0x55, 0x55])) := by
  decide +kernel
theorem test_asm_raw : assemble ".cw 0x00FF0F03".toList = some (.raw (cmd 0x00FF0F03 0 [])) ∧
    assemble ".cw 9, 7, [0a]".toList = some (.raw (cmd 9 7 [0x0a])) := by decide +kernel
theorem test_asm_refuses : assemble "SETBIT s16, 1".toList = none ∧ assemble "NEW s0".toList = none ∧
    assemble "SIZE s0, 18446744073709551616".toList = none := by decide +kernel

/-! ## Witnesses: a state and operands that meet all hypotheses of a statement together; where a statement has several
clauses over one value, one witness for each, at the value where they meet -/

/-- The state in an answer. -/
def after (o : StepResult) : State :=
  match o with
  | .next t => t
  | .fault _ => State.reset
  | .refused _ => State.reset

/-- Slots of 2 and 1 words, and a command record with this operand. -/
def withA (a : Word) : State := { two [5, 0x8000000000000000] [9] with cmd := cmd 0 a [] }

/-- Slots of 2 and 1 words, and a command record with this many input bytes. -/
def withIn (n : Nat) : State := { two [5, 0x8000000000000000] [9] with cmd := cmd 0 0 (List.replicate n 0xab) }

/-- Slots of 2 and 1 words, and one event to come. -/
def withInput (e : Input) : State := { two [5, 0x8000000000000000] [9] with inputs := [e] }

/-- Slots of 2 and 1 words, and one command outstanding. -/
def withRequest (c : Command) : State := { two [5, 0x8000000000000000] [9] with outstanding := [⟨3, c⟩] }

theorem witness_EncodeOfDecode : decode 0x00001107 = .ok (.copy 1 1) := by decide

theorem witness_RejectedWordReportsItsError :
    decode 0x0000000E = .error .illegalOpcode ∧ decode 0x00010001 = .error .reservedField := by decide

theorem witness_IllegalSlotReportsBadStore : (withA 0).storesOk ∧ (Instr.new 2).wf (withA 0).cfg = false ∧
    (Instr.copy 0 2).wf (withA 0).cfg = false := by decide

theorem witness_ErrorHasOnlyItsRecordedEffect :
    ∃ t, (withA 0).perform (cmd 0x00000004 0x80 []) = .next t ∧ t.resp.err ≠ 0 :=
  ⟨after ((withA 0).perform (cmd 0x00000004 0x80 [])), rfl, by decide⟩

theorem witness_EveryCommandUpdatesStatus :
    (∃ t, (withA 0).perform (cmd 0x00000004 0x7F []) = .next t ∧ t.resp.err = 0) ∧
    (∃ t, (withA 0).perform (cmd 0x00000004 0x80 []) = .next t ∧ t.resp.err ≠ 0) :=
  ⟨⟨after ((withA 0).perform (cmd 0x00000004 0x7F [])), rfl, by decide⟩,
   ⟨after ((withA 0).perform (cmd 0x00000004 0x80 [])), rfl, by decide⟩⟩

theorem witness_OnlyResetClearsStickyBits :
    ∃ s t : State, step s = .next t ∧ s.nextMove ≠ some (.input .reset) ∧ s.status.getLsbD 8 = true :=
  ⟨{ withRequest (cmd 0x00000002 0 []) with status := 0x0100 },
   after (step { withRequest (cmd 0x00000002 0 []) with status := 0x0100 }), rfl, by decide, by decide⟩

theorem witness_ReadingStatusChangesNoBlockState :
    (withInput (.readStatus 3)).nextMove = some (.input (.readStatus 3)) := by decide

theorem witness_NewBuildsZeroStoreOrReportsCapacity :
    (withA 0x100).cfg.legal ∧ (withA 0x100).holds 0 ⟨[5, 0x8000000000000000]⟩ ∧
    4 = max 1 (((withA 0x100).cmd.a.toNat + 63) / 64) ∧ 4 ≤ (withA 0x100).cfg.maxWords ∧
    5 = max 1 (((withA 0x101).cmd.a.toNat + 63) / 64) ∧ (withA 0x101).cfg.maxWords < 5 := by decide

theorem witness_FreshStoreIsAllZero : ∃ t, (withA 0x41).cfg.slotLegal 1 = true ∧ exec (.new 1) (withA 0x41) = .next t ∧
    t.resp.err = 0 ∧ (cmd 0 127 []).a.toNat < t.wcAt 1 * 64 :=
  ⟨after (exec (.new 1) (withA 0x41)), by decide, rfl, by decide, by decide⟩

theorem witness_SizeReturnsBitCapacity : (withA 0).storesOk ∧ (withA 0).holds 1 ⟨[9]⟩ := by decide
theorem witness_CountReturnsNumberOfSetBits : (withA 0).storesOk ∧ (withA 0).holds 1 ⟨[9]⟩ := by decide
theorem witness_EncodeEmitsLittleEndianImage : (withA 0).storesOk ∧ (withA 0).holds 1 ⟨[9]⟩ := by decide
theorem witness_BitsAreBitsOfTheImage : (withA 0).holds 1 ⟨[9]⟩ ∧ 63 < (⟨[9]⟩ : Store).wc * 64 := by decide

theorem witness_SetbitOrsOneBitOrDoesNothing : (withA 0x7F).holds 0 ⟨[5, 0x8000000000000000]⟩ ∧
    (withA 0x7F).cmd.a.toNat < (⟨[5, 0x8000000000000000]⟩ : Store).wc * 64 ∧
    (withA 0x80).holds 0 ⟨[5, 0x8000000000000000]⟩ ∧
    (⟨[5, 0x8000000000000000]⟩ : Store).wc * 64 ≤ (withA 0x80).cmd.a.toNat := by decide

theorem witness_SetThenGet : (withA 0x7F).holds 0 ⟨[5, 0x8000000000000000]⟩ ∧
    (withA 0x7F).cmd.a.toNat < (⟨[5, 0x8000000000000000]⟩ : Store).wc * 64 ∧
    (cmd 0 0x7F []).a = (withA 0x7F).cmd.a ∧ ((0, 0x7E) : Nat × Nat) ≠ ((0 : Slot).toNat, (withA 0x7F).cmd.a.toNat) := by
  decide

theorem witness_GetbitReturnsBitOrReportsRange : (withA 0x3F).holds 1 ⟨[9]⟩ ∧
    (withA 0x3F).cmd.a.toNat < (⟨[9]⟩ : Store).wc * 64 ∧ (withA 0x40).holds 1 ⟨[9]⟩ ∧
    (⟨[9]⟩ : Store).wc * 64 ≤ (withA 0x40).cmd.a.toNat := by decide

theorem witness_EqualsComparesWordForWord :
    (withA 0).holds 0 ⟨[5, 0x8000000000000000]⟩ ∧ (withA 0).holds 1 ⟨[9]⟩ := by decide

theorem witness_CopyTakesWordCountAndWords :
    (withA 0).holds 0 ⟨[5, 0x8000000000000000]⟩ ∧ (withA 0).holds 1 ⟨[9]⟩ := by decide

/-- COPY s0, s1 done, with SETBIT s1, 2 of host 3 outstanding; and the state after that command, which spares slot 0. -/
def copied : State :=
  after (exec (.copy 0 1) { withA 0 with outstanding := [⟨3, cmd 0x00000103 2 []⟩] })
def copiedLater : State := after (copied.doMove (.perform ⟨3, cmd 0x00000103 2 []⟩))

theorem witness_CopyIsIndependent : ∃ v w, (0 : Slot) ≠ 1 ∧
    exec (.copy 0 1) { withA 0 with outstanding := [⟨3, cmd 0x00000103 2 []⟩] } = .next copied ∧
    (∃ log, HostRun (fun _ => true) 3 log copied copiedLater) ∧ (∃ log, HostRun (Move.spares 0) 3 log copied copiedLater) ∧
    (exec (.setbit 0) (copiedLater.latch (cmd 0 1 [])) = .next v ∧ (Instr.setbit 0).writes = some 0) ∧
    (exec (.new 1) (copiedLater.latch (cmd 0 1 [])) = .next w ∧ (Instr.new 1).writes = some 1) :=
  ⟨after (exec (.setbit 0) (copiedLater.latch (cmd 0 1 []))), after (exec (.new 1) (copiedLater.latch (cmd 0 1 []))),
   by decide, rfl, ⟨_, .step (some (.perform ⟨3, cmd 0x00000103 2 []⟩)) rfl ⟨by decide, rfl⟩ (.done _)⟩,
   ⟨_, .step (some (.perform ⟨3, cmd 0x00000103 2 []⟩)) rfl ⟨by decide, rfl⟩ (.done _)⟩, ⟨rfl, rfl⟩, rfl, rfl⟩

/-- COPY s0, s1 done, with SETBIT s0, 2 of host 3 outstanding: the command that follows spares slot 1. -/
theorem witness_CopyIsIndependent_source : ∃ t u log, (0 : Slot) ≠ 1 ∧
    exec (.copy 0 1) { withA 0 with outstanding := [⟨3, cmd 0x00000003 2 []⟩] } = .next t ∧
    HostRun (Move.spares 1) 3 log t u ∧ t.stores ≠ u.stores :=
  ⟨after (exec (.copy 0 1) { withA 0 with outstanding := [⟨3, cmd 0x00000003 2 []⟩] }),
   after ((after (exec (.copy 0 1) { withA 0 with outstanding := [⟨3, cmd 0x00000003 2 []⟩] })).doMove
     (.perform ⟨3, cmd 0x00000003 2 []⟩)), _,
   by decide, rfl, .step (some (.perform ⟨3, cmd 0x00000003 2 []⟩)) rfl ⟨by decide, rfl⟩ (.done _), by decide⟩

theorem witness_DecodeLoadsCompleteChunks : (withIn 40).cfg.legal ∧ (withIn 40).holds 1 ⟨[9]⟩ ∧
    (withIn 40).cfg.maxWords < (withIn 40).cmd.input.length / 8 ∧
    (withIn 7).holds 1 ⟨[9]⟩ ∧ (withIn 7).cmd.input.length < 8 ∧
    (withIn 8).holds 1 ⟨[9]⟩ ∧ 8 ≤ (withIn 8).cmd.input.length ∧
    (withIn 39).holds 1 ⟨[9]⟩ ∧ (withIn 39).cmd.input.length / 8 ≤ (withIn 39).cfg.maxWords := by decide

theorem witness_DecodedImageEqualsItsStore : (withA 0).storesOk ∧ (withA 0).cfg.slotLegal 0 = true ∧
    (withA 0).cfg.slotLegal 1 = true ∧
    ∃ t c, exec (.encode 0) (withA 0) = .next t ∧ (c : Command).input = t.resp.outb :=
  ⟨by decide, by decide, by decide, after (exec (.encode 0) (withA 0)),
   cmd 0 0 (after (exec (.encode 0) (withA 0))).resp.outb, rfl, rfl⟩

theorem witness_EncodeAfterDecodeDropsRemainder : (withIn 39).storesOk ∧ (withIn 39).cfg.slotLegal 1 = true ∧
    (withIn 39).cmd.input.length ≤ 8 * (withIn 39).cfg.maxWords + 7 ∧ (withIn 7).storesOk ∧
    (withIn 7).cmd.input.length ≤ 8 * (withIn 7).cfg.maxWords + 7 := by decide

/-- The state of `witness_BitViewSurvivesRoundTrip` after ENCODE s0, and the command record that decodes its image. -/
def encoded : State := after (exec (.encode 0) (withA 0))
def decodeImage : Command := cmd 0 0 encoded.resp.outb

theorem witness_BitViewSurvivesRoundTrip : ∃ u, (withA 0).storesOk ∧ (withA 0).cfg.slotLegal 0 = true ∧
    (withA 0).cfg.slotLegal 1 = true ∧ exec (.encode 0) (withA 0) = .next encoded ∧
    decodeImage.input = encoded.resp.outb ∧ exec (.decode 1) (encoded.latch decodeImage) = .next u ∧
    (cmd 0 127 []).a.toNat < (withA 0).wcAt (0 : Slot).toNat * 64 :=
  ⟨after (exec (.decode 1) (encoded.latch decodeImage)), by decide, by decide, by decide, rfl, rfl, rfl, by decide⟩

theorem witness_MuxSplitsDigestIntoSeeds : (withIn 65).cfg.muxMaxBytes < (withIn 65).cmd.input.length ∧
    (withIn 64).cmd.input.length ≤ (withIn 64).cfg.muxMaxBytes := by decide

theorem witness_DigestGivesOneToEightSeeds : (withIn 8).cfg.muxMaxBytes = 64 ∧ 8 ≤ (withIn 8).cmd.input.length ∧
    (withIn 64).cmd.input.length ≤ 64 ∧ (withIn 32).cmd.input.length = 32 := by decide

theorem witness_MuxDependsOnDigestAlone : (withIn 9).cfg = ({ two [1] [2] with cmd := cmd 5 6 (List.replicate 9 0xab) } : State).cfg ∧
    (withIn 9).cmd.input = ({ two [1] [2] with cmd := cmd 5 6 (List.replicate 9 0xab) } : State).cmd.input := by decide

theorem witness_IndexIsSeedModSize : (withA 0x80).storesOk ∧ (withA 0x80).holds 0 ⟨[5, 0x8000000000000000]⟩ := by decide
theorem witness_SethashOrsTheSelectedBit : (withA 0xFF).storesOk ∧ (withA 0xFF).holds 0 ⟨[5, 0x8000000000000000]⟩ ∧
    127 = (withA 0xFF).cmd.a.toNat % ((⟨[5, 0x8000000000000000]⟩ : Store).wc * 64) := by decide
theorem witness_SethashIsSetbitOfDerivedIndex : (withA 0xFF).storesOk ∧
    (withA 0xFF).holds 0 ⟨[5, 0x8000000000000000]⟩ ∧ (cmd 0 127 []).a.toNat =
      (withA 0xFF).cmd.a.toNat % ((⟨[5, 0x8000000000000000]⟩ : Store).wc * 64) := by decide
theorem witness_GethashReturnsTheSelectedBit : (withA 0xFF).storesOk ∧
    (withA 0xFF).holds 0 ⟨[5, 0x8000000000000000]⟩ := by decide

/-- CommandsChangeNothingElse, CommandsWriteOnlyTheirSlot, RepeatingACommandChangesNoStore: a command that answers. -/
theorem witness_CommandsChangeNothingElse : ∃ t, exec (.copy 1 0) (withA 0) = .next t :=
  ⟨after (exec (.copy 1 0) (withA 0)), rfl⟩
theorem witness_CommandsWriteOnlyTheirSlot : ∃ t, exec (.copy 1 0) (withA 0) = .next t ∧
    ∀ d, (Instr.copy 1 0).writes = some d → 0 ≠ d.toNat :=
  ⟨after (exec (.copy 1 0) (withA 0)), rfl, by intro d h; cases h; decide⟩
theorem witness_OnlyConstructionChangesWordCount : ∃ t, exec (.setbit 0) (withA 0) = .next t ∧
    ∀ d, (Instr.setbit 0).rebuilds = some d → 0 ≠ d.toNat :=
  ⟨after (exec (.setbit 0) (withA 0)), rfl, by intro d h; cases h⟩
theorem witness_RepeatingACommandChangesNoStore : (∃ t, exec (.sethash 0) (withA 7) = .next t) ∧
    (∃ t, exec (.getbit 0) (withA 0x80) = .next t ∧ (Instr.getbit 0).writes = none) :=
  ⟨⟨after (exec (.sethash 0) (withA 7)), rfl⟩, ⟨after (exec (.getbit 0) (withA 0x80)), rfl, rfl⟩⟩

theorem witness_RuntimeCommandsDoNotFail : (withIn 64).storesOk ∧ (withIn 64).cfg.slotLegal 1 = true ∧
    (withIn 64).cmd.input.length ≤ (withIn 64).cfg.muxMaxBytes := by decide

/-- SETHASH s0, 7 done, and a host about to read STATUS. -/
def hashed : State := after (exec (.sethash 0) { withA 7 with inputs := [.readStatus 3] })

/-- SETBIT s0, 127 done, and a host about to read STATUS. -/
def bitSet : State := after (exec (.setbit 0) { withA 127 with inputs := [.readStatus 3] })

theorem witness_NoFalseNegatives_setbit : ∃ u, ({ withA 127 with inputs := [.readStatus 3] } : State).storesOk ∧
    (withA 127).cfg.slotLegal 0 = true ∧ QuietRun 0 1 bitSet u ∧ (cmd 0 127 []).a = (withA 127).cmd.a ∧
    exec (.setbit 0) { withA 127 with inputs := [.readStatus 3] } = .next bitSet ∧
    (withA 127).cmd.a.toNat < (withA 127).wcAt (0 : Slot).toNat * 64 :=
  ⟨after (step bitSet), by decide, by decide,
   .step (some (.input (.readStatus 3))) rfl ⟨by decide, rfl⟩ (.stay _), by decide, rfl, by decide⟩

theorem witness_NoFalseNegatives : ∃ u, ({ withA 7 with inputs := [.readStatus 3] } : State).storesOk ∧
    (withA 7).cfg.slotLegal 0 = true ∧
    exec (.sethash 0) { withA 7 with inputs := [.readStatus 3] } = .next hashed ∧ QuietRun 0 1 hashed u ∧
    (cmd 0 7 []).a = (withA 7).cmd.a :=
  ⟨after (step hashed), by decide, by decide, rfl,
   .step (some (.input (.readStatus 3))) rfl ⟨by decide, rfl⟩ (.stay _), by decide⟩

theorem witness_NoFalseNegatives_cleared : ∃ v, exec (.new 0) (withA 0) = .next v ∧ (withA 0).bitAt 0 127 = true ∧
    v.bitAt 0 127 = false :=
  ⟨after (exec (.new 0) (withA 0)), rfl, by decide, by decide⟩

theorem witness_AddThenTestIsTrue : (withA 0).storesOk ∧ (withA 0).cfg.slotLegal 0 = true ∧
    (List.replicate 64 (0xab : Byte)).length ≤ (withA 0).cfg.muxMaxBytes ∧
    ∃ t, (withA 0).hostAdd 0 (List.replicate 64 0xab) = .next t ∧ QuietRun 0 0 t t :=
  ⟨by decide, by decide, by decide, after ((withA 0).hostAdd 0 (List.replicate 64 0xab)), rfl, .stay _⟩

/-- Host 0 has the MUX of a one-seed digest outstanding and will accept its response and issue SETHASH s0, 5; host 1 has
SETBIT s0, 0 outstanding; host 2 will then issue MUX of the digest, accept its response and issue GETHASH s0, 5. -/
def adding : State := { two [8, 0] [9] with
  outstanding := [⟨0, muxCommand [5, 0, 0, 0, 0, 0, 0, 0]⟩, ⟨1, cmd 0x00000003 0 []⟩],
  inputs := [.accept 0, .issue 0 (sethashCommand 0 5), .issue 2 (muxCommand [5, 0, 0, 0, 0, 0, 0, 0]), .accept 2,
    .issue 2 (gethashCommand 0 5)] }

/-- The five moves of `adding`: host 1's command falls between the two commands of host 0's ADD. -/
def addMoves : List Move := [.perform ⟨0, muxCommand [5, 0, 0, 0, 0, 0, 0, 0]⟩, .perform ⟨1, cmd 0x00000003 0 []⟩,
  .input (.accept 0), .input (.issue 0 (sethashCommand 0 5)), .perform ⟨0, sethashCommand 0 5⟩]

/-- The five moves of host 2's TEST after it. -/
def testMoves : List Move := [.input (.issue 2 (muxCommand [5, 0, 0, 0, 0, 0, 0, 0])),
  .perform ⟨2, muxCommand [5, 0, 0, 0, 0, 0, 0, 0]⟩, .input (.accept 2), .input (.issue 2 (gethashCommand 0 5)),
  .perform ⟨2, gethashCommand 0 5⟩]

/-- Make the moves of a list, where each is open and passes the test, with the record of host h. -/
def runMoves (test : Move → Bool) (h : Nat) : List Move → State → Option (List (Command × Response) × State)
  | [], s => some ([], s)
  | m :: ms, s =>
    if test m && s.moves.contains m then
      match s.doMove m with
      | .next t => (runMoves test h ms t).map fun e => (t.logEntry h (some m) ++ e.1, e.2)
      | .fault _ => none
      | .refused _ => none
    else none

theorem hostRun_of_runMoves {test : Move → Bool} {h : Nat} : ∀ {ms : List Move} {s : State}
    {e : List (Command × Response) × State}, runMoves test h ms s = some e → HostRun test h e.1 s e.2
  | [], s, e, he => by cases he; exact .done s
  | m :: ms, s, e, he => by
    unfold runMoves at he
    split at he
    · rename_i hm
      simp only [Bool.and_eq_true, List.contains_iff_mem] at hm
      split at he
      · rename_i t ht
        obtain ⟨e', he', rfl⟩ := Option.map_eq_some_iff.1 he
        exact .step (some m) (by simpa using hm.1) ⟨hm.2, ht⟩ (hostRun_of_runMoves he')
      · cases he
      · cases he
    · cases he

/-- A host's record and the last state of a list of moves that keep slot 0. -/
def made (h : Nat) (ms : List Move) (s : State) : List (Command × Response) × State :=
  (runMoves (Move.keeps 0) h ms s).getD ([], s)

/-- The state after the ADD of `adding`. -/
def added : State := (made 0 addMoves adding).2

theorem witness_AddThenTestIsTrueAcrossHosts : adding.storesOk ∧ adding.cfg.slotLegal 0 = true ∧
    ([5, 0, 0, 0, 0, 0, 0, 0] : List Byte).length ≤ adding.cfg.muxMaxBytes ∧
    HostRun (Move.keeps 0) 0 (made 0 addMoves adding).1 adding added ∧
    isAddRecord 0 [5, 0, 0, 0, 0, 0, 0, 0] (made 0 addMoves adding).1 = true ∧ QuietRun 0 0 added added ∧
    HostRun (Move.keeps 0) 2 (made 2 testMoves added).1 added (made 2 testMoves added).2 ∧
    testRecordAnswer 0 [5, 0, 0, 0, 0, 0, 0, 0] (made 2 testMoves added).1 = some true :=
  ⟨by decide, by decide, by decide,
   hostRun_of_runMoves (ms := addMoves) (e := made 0 addMoves adding) (by decide +kernel), by decide +kernel, .stay _,
   hostRun_of_runMoves (ms := testMoves) (e := made 2 testMoves added) (by decide +kernel), by decide +kernel⟩

theorem witness_SecondAddChangesNoStore : ∃ t, (withA 0).storesOk ∧ (withA 0).cfg.slotLegal 0 = true ∧
    (withA 0).hostAdd 0 [5, 0, 0, 0, 0, 0, 0, 0] = .next t :=
  ⟨after ((withA 0).hostAdd 0 [5, 0, 0, 0, 0, 0, 0, 0]), by decide, by decide, rfl⟩

/-- `adding`, and then host 2 issues SETHASH s0, 5, as a second ADD of the digest does. -/
def addingTwice : State := { adding with
  inputs := [.accept 0, .issue 0 (sethashCommand 0 5), .issue 2 (sethashCommand 0 5)] }

/-- The state after the first ADD of `addingTwice`, and the one in which host 2's SETHASH is outstanding. -/
def addedOnce : State := (made 0 addMoves addingTwice).2
def setAgain : State := (made 0 [.input (.issue 2 (sethashCommand 0 5))] addedOnce).2

theorem witness_SecondAddChangesNoStore_step : ∃ v, addingTwice.storesOk ∧ addingTwice.cfg.slotLegal 0 = true ∧
    HostRun (Move.keeps 0) 0 (made 0 addMoves addingTwice).1 addingTwice addedOnce ∧
    isAddRecord 0 [5, 0, 0, 0, 0, 0, 0, 0] (made 0 addMoves addingTwice).1 = true ∧ QuietRun 0 1 addedOnce setAgain ∧
    (⟨2, sethashCommand 0 5⟩ : Request).cmd ∈ (made 0 addMoves addingTwice).1.map Prod.fst ∧
    OpenStep setAgain (some (.perform ⟨2, sethashCommand 0 5⟩)) v :=
  ⟨after (setAgain.doMove (.perform ⟨2, sethashCommand 0 5⟩)), by decide, by decide,
   hostRun_of_runMoves (ms := addMoves) (e := made 0 addMoves addingTwice) (by decide +kernel), by decide +kernel,
   .step (some (.input (.issue 2 (sethashCommand 0 5)))) rfl ⟨by decide +kernel, rfl⟩ (.stay _), by decide +kernel,
   by decide +kernel, rfl⟩

/-- `adding`, and then host 2 issues the two commands of a second ADD of the digest. -/
def addingAgain : State := { adding with
  inputs := [.accept 0, .issue 0 (sethashCommand 0 5), .issue 2 (muxCommand [5, 0, 0, 0, 0, 0, 0, 0]), .accept 2,
    .issue 2 (sethashCommand 0 5)] }

/-- The five moves of host 2's ADD. -/
def againMoves : List Move := [.input (.issue 2 (muxCommand [5, 0, 0, 0, 0, 0, 0, 0])),
  .perform ⟨2, muxCommand [5, 0, 0, 0, 0, 0, 0, 0]⟩, .input (.accept 2), .input (.issue 2 (sethashCommand 0 5)),
  .perform ⟨2, sethashCommand 0 5⟩]

/-- The state after the first ADD of `addingAgain`. -/
def addedFirst : State := (made 0 addMoves addingAgain).2

theorem witness_SecondAddChangesNoStore_again : addingAgain.storesOk ∧ addingAgain.cfg.slotLegal 0 = true ∧
    HostRun (Move.keeps 0) 0 (made 0 addMoves addingAgain).1 addingAgain addedFirst ∧
    isAddRecord 0 [5, 0, 0, 0, 0, 0, 0, 0] (made 0 addMoves addingAgain).1 = true ∧ QuietRun 0 0 addedFirst addedFirst ∧
    HostRun (Move.keeps 0) 2 (made 2 againMoves addedFirst).1 addedFirst (made 2 againMoves addedFirst).2 ∧
    isAddRecord 0 [5, 0, 0, 0, 0, 0, 0, 0] (made 2 againMoves addedFirst).1 = true :=
  ⟨by decide, by decide,
   hostRun_of_runMoves (ms := addMoves) (e := made 0 addMoves addingAgain) (by decide +kernel), by decide +kernel,
   .stay _, hostRun_of_runMoves (ms := againMoves) (e := made 2 againMoves addedFirst) (by decide +kernel),
   by decide +kernel⟩

theorem witness_ShortDigestAddsNothingAndTestsTrue : ([1, 2, 3, 4, 5, 6, 7] : List Byte).length < 8 ∧
    8 ≤ (withA 0).cfg.muxMaxBytes := by decide

theorem witness_InvariantHoldsAtReset : Config.standard.legal ∧
    ({ nStores := 16, maxWords := 2 ^ 58 - 1, muxMaxBytes := 8 } : Config).legal := by decide

theorem witness_EveryStepKeepsTheInvariant : ∃ t, (withRequest (cmd 0x00000004 0x80 [])).Inv ∧
    step (withRequest (cmd 0x00000004 0x80 [])) = .next t :=
  ⟨after (step (withRequest (cmd 0x00000004 0x80 []))), by decide, rfl⟩

theorem witness_NoStepStops : (withRequest (cmd 0x000000FF 0 [])).Inv := by decide

theorem witness_StepRunsTheDecodedCommand :
    (withRequest (cmd 0x00000107 0 [])).nextMove = some (.perform ⟨3, cmd 0x00000107 0 []⟩) ∧
    decode 0x00000107 = .ok (.copy 1 0) ∧
    (withRequest (cmd 0x0000000E 0 [])).nextMove = some (.perform ⟨3, cmd 0x0000000E 0 []⟩) ∧
    decode 0x0000000E = .error .illegalOpcode ∧
    (withRequest (cmd 0x00010001 0 [])).nextMove = some (.perform ⟨3, cmd 0x00010001 0 []⟩) ∧
    decode 0x00010001 = .error .reservedField := by decide

theorem witness_OneResponseToTheIssuingHost : ∃ t,
    (withRequest (cmd 0x00000107 0 [])).nextMove = some (.perform ⟨3, cmd 0x00000107 0 []⟩) ∧
    step (withRequest (cmd 0x00000107 0 [])) = .next t :=
  ⟨after (step (withRequest (cmd 0x00000107 0 []))), by decide, rfl⟩

theorem witness_ArbiterTakesAnOutstandingCommand :
    (withRequest (cmd 0x00000107 0 [])).nextMove = some (.perform ⟨3, cmd 0x00000107 0 []⟩) ∧
    (withRequest (cmd 0x00000107 0 [])).outstanding = [⟨3, cmd 0x00000107 0 []⟩] ∧
    (withRequest (cmd 0x00000107 0 [])).inputs = [] := by decide

theorem witness_AnyOutstandingCommandMayBeNext : ∃ t, (withRequest (cmd 0x00000002 0 [])).Inv ∧
    (⟨3, cmd 0x00000002 0 []⟩ : Request) ∈ (withRequest (cmd 0x00000002 0 [])).outstanding ∧
    step (withRequest (cmd 0x00000002 0 [])) = .next t :=
  ⟨after (step (withRequest (cmd 0x00000002 0 []))), by decide, by decide, rfl⟩

theorem witness_HostAcceptsItsResponse :
    ({ withInput (.accept 3) with responses := [⟨3, Response.none⟩] } : State).hostsOk ∧
    ({ withInput (.accept 3) with responses := [⟨3, Response.none⟩] } : State).nextMove = some (.input (.accept 3)) := by
  decide

theorem witness_HostIssuesOnlyWhenFree : (withInput (.issue 3 (cmd 0x00000002 0 []))).nextMove =
    some (.input (.issue 3 (cmd 0x00000002 0 []))) := by decide

theorem witness_ReturnedResponsesNeverChange : ∃ s t : State, step s = .next t ∧ s.responses ≠ [] :=
  ⟨{ withInput (.accept 3) with responses := [⟨3, Response.none⟩] },
   after (step { withInput (.accept 3) with responses := [⟨3, Response.none⟩] }), rfl, by decide⟩

theorem witness_ResetInputRestoresResetState : (withInput .reset).nextMove = some (.input .reset) := by decide

theorem witness_IdleBlockWaits : (withA 0).outstanding = [] ∧ (withA 0).inputs = [] := by decide

/-- A run that is over while a response waits for host 3, which will accept it. -/
def accepting : State := { withInput (.accept 3) with responses := [⟨3, { Response.none with r := 7 }⟩] }

theorem witness_RunOverIsFinal : (∃ t, (withInput (.readStatus 3)).runOver ∧ step (withInput (.readStatus 3)) = .next t ∧
      (withInput (.readStatus 3)).nextMove ≠ some (.input .reset) ∧ (withInput (.readStatus 3)).responses = []) ∧
    (∃ t, accepting.runOver ∧ step accepting = .next t ∧ accepting.nextMove ≠ some (.input .reset) ∧
      accepting.received 3 = [] ∧ t.received 3 = [{ Response.none with r := 7 }]) ∧
    ¬ (withInput (.issue 3 Command.none)).runOver :=
  ⟨⟨after (step (withInput (.readStatus 3))), by decide, rfl, by decide, rfl⟩,
   ⟨after (step accepting), by decide, rfl, by decide, by decide, by decide⟩, by decide⟩

theorem witness_OutstandingCommandsAreEventuallyPerformed :
    ({ withRequest (cmd 0x00000002 0 []) with inputs := [.issue 4 (cmd 0x00000005 0 [])] } : State).Inv ∧
    2 * 1 + 1 ≤ 3 := by decide

/-- A run without end: SIZE s0 of host 3 is performed, and then nothing happens. -/
def fairState (k : Nat) : State :=
  if k = 0 then withRequest (cmd 0x00000002 0 []) else after (step (withRequest (cmd 0x00000002 0 [])))
def fairMove (k : Nat) : Option Move := if k = 0 then some (.perform ⟨3, cmd 0x00000002 0 []⟩) else none

theorem witness_FairRunsPerformEveryCommand : (fairState 0).Inv ∧ OpenRun fairState fairMove ∧
    WeaklyFair fairState fairMove ∧ (⟨3, cmd 0x00000002 0 []⟩ : Request) ∈ (fairState 0).outstanding := by
  refine ⟨by decide, ?_, ?_, by decide⟩
  · intro k
    cases k with
    | zero => exact ⟨by decide, rfl⟩
    | succ k => exact ⟨[], rfl⟩
  · intro h k always
    obtain ⟨q, hq, -⟩ := always (k + 1) (by omega)
    have none_left : (after (step (withRequest (cmd 0x00000002 0 [])))).outstanding = [] := by decide
    change q ∈ (after (step (withRequest (cmd 0x00000002 0 [])))).outstanding at hq
    rw [none_left] at hq
    exact absurd hq List.not_mem_nil

end Sys2Proof.Tests
end

namespace Sys2Proof.Machine

/-! ## The reset state of every build (10_state.md R34) -/

@[simp] theorem State.resetWith_stores (c : Config) :
    (State.resetWith c).stores = List.replicate c.nStores Store.oneZero := rfl
@[simp] theorem State.resetWith_status (c : Config) : (State.resetWith c).status = 0 := rfl
@[simp] theorem State.resetWith_outstanding (c : Config) : (State.resetWith c).outstanding = [] := rfl
@[simp] theorem State.resetWith_responses (c : Config) : (State.resetWith c).responses = [] := rfl

/-- Settles O45: the four fields named by R34, each by its equation; a store of one zero word is `Store.oneZero`. -/
theorem resetLeavesTheResetValues : Obligations.ResetLeavesTheResetValues := fun c =>
  ⟨State.resetWith_stores c, State.resetWith_status c, State.resetWith_outstanding c, State.resetWith_responses c⟩

end Sys2Proof.Machine

namespace Sys2Proof.Machine

/-! ## Bits of a store and bits of its image (20_memory.md R42) -/

/-- Bit i of a store is bit i % 8 of byte i / 8 of its image: that byte is byte i / 8 % 8 of word i / 64, and its bit
i % 8 is bit i % 64 of the word. -/
theorem imageOf_bit (st : Store) {i : Nat} (h : i < st.size) :
    ((imageOf st.words).getD (i / 8) 0).getLsbD (i % 8) = st.bit i := by
  have hk : i / 64 < st.words.length := by simp only [Store.size, Store.wc] at h; omega
  have hbyte : (imageOf st.words)[i / 8]? = some ((st.words.getD (i / 64) 0).extractLsb' (8 * (i / 8 % 8)) 8) := by
    rw [← imageOf_byte st.words hk (Nat.mod_lt _ (by decide))]
    congr 1
    omega
  have hbit : 8 * (i / 8 % 8) + i % 8 = i % 64 := by omega
  rw [List.getD_eq_getElem?_getD, hbyte, Option.getD_some, BitVec.getLsbD_extractLsb', hbit, Store.bit]
  simp [Nat.mod_lt]

/-- Settles O23: ENCODE on a legal slot answers the image of the store, whose bits are those of `imageOf_bit`. -/
theorem bitsAreBitsOfTheImage : Obligations.BitsAreBitsOfTheImage := fun _ _ st hst =>
  ⟨_, withStore_of_holds hst _, fun _ hi => (imageOf_bit st hi).symm⟩

/-! ## The stores and the response of a command depend on the build, the command record and the stores alone

STATUS, the last response and the hosts' side take no part, so a command repeated over unchanged stores does the same
again (20_memory.md R46). -/

/-- Two states with the same build, command record and stores. -/
structure State.SameInputs (s t : State) : Prop where
  cfg : t.cfg = s.cfg
  cmd : t.cmd = s.cmd
  stores : t.stores = s.stores

/-- The stores and the response a command leaves, none where it does not complete. -/
def effectOf : StepResult → Option (List Store × Response)
  | .next t => some (t.stores, t.resp)
  | .fault _ => none
  | .refused _ => none

theorem effectOf_eq_some {x : StepResult} {stores : List Store} {resp : Response} :
    effectOf x = some (stores, resp) ↔ ∃ u, x = .next u ∧ u.stores = stores ∧ u.resp = resp := by
  cases x <;> simp [effectOf]

namespace State.SameInputs

variable {s t : State}

theorem setStore (h : s.SameInputs t) (slot : Slot) (st : Store) :
    (s.setStore slot st).SameInputs (t.setStore slot st) :=
  ⟨h.cfg, h.cmd, by simp [h.stores]⟩

theorem effectOf_endCommand (h : s.SameInputs t) (e : ErrCode) (r : Word) (outb : List Byte) (outs : List Word) :
    effectOf (.next (t.endCommand e r outb outs)) = effectOf (.next (s.endCommand e r outb outs)) := by
  simp [effectOf, h.stores]

theorem effectOf_finish (h : s.SameInputs t) (r : Word) : effectOf (t.finish r) = effectOf (s.finish r) :=
  h.effectOf_endCommand .ok r [] []

theorem effectOf_fail (h : s.SameInputs t) (e : ErrCode) : effectOf (t.fail e) = effectOf (s.fail e) :=
  h.effectOf_endCommand e 0 [] []

theorem effectOf_withStore (h : s.SameInputs t) (slot : Slot) {k k' : Store → StepResult}
    (hk : ∀ st, effectOf (k' st) = effectOf (k st)) :
    effectOf (t.withStore slot k') = effectOf (s.withStore slot k) := by
  unfold State.withStore
  rw [h.cfg, h.stores]
  split
  · split
    · exact hk _
    · rfl
  · exact h.effectOf_fail _

theorem effectOf_withIndex (h : s.SameInputs t) (st : Store) {k k' : Nat → StepResult}
    (hk : ∀ idx, effectOf (k' idx) = effectOf (k idx)) :
    effectOf (t.withIndex st k') = effectOf (s.withIndex st k) := by
  unfold State.withIndex
  rw [h.cmd]
  split
  · rfl
  · exact hk _

/-- A command leaves the same stores and response in two states with the same inputs. -/
theorem effectOf_exec (h : s.SameInputs t) (i : Instr) : effectOf (exec i t) = effectOf (exec i s) := by
  cases i with
  | new sd =>
    refine h.effectOf_withStore sd fun _ => ?_
    dsimp only
    rw [h.cmd, h.cfg]
    split
    · exact h.effectOf_fail _
    · exact (h.setStore _ _).effectOf_finish _
  | size sd => exact h.effectOf_withStore sd fun _ => h.effectOf_finish _
  | setbit sd =>
    refine h.effectOf_withStore sd fun _ => ?_
    rw [h.cmd]
    split
    · exact (h.setStore _ _).effectOf_finish _
    · exact h.effectOf_finish _
  | getbit sd =>
    refine h.effectOf_withStore sd fun _ => ?_
    rw [h.cmd]
    split
    · exact h.effectOf_fail _
    · exact h.effectOf_finish _
  | count sd => exact h.effectOf_withStore sd fun _ => h.effectOf_finish _
  | equals sd ss => exact h.effectOf_withStore sd fun _ => h.effectOf_withStore ss fun _ => h.effectOf_finish _
  | copy sd ss =>
    exact h.effectOf_withStore sd fun _ => h.effectOf_withStore ss fun _ => (h.setStore _ _).effectOf_finish _
  | encode sd => exact h.effectOf_withStore sd fun _ => h.effectOf_endCommand _ _ _ _
  | decode sd =>
    refine h.effectOf_withStore sd fun _ => ?_
    rw [h.cmd, h.cfg]
    split
    · exact h.effectOf_fail _
    · exact (h.setStore _ _).effectOf_finish _
  | mux =>
    change effectOf (execMux t) = effectOf (execMux s)
    unfold execMux
    rw [h.cmd, h.cfg]
    split
    · exact h.effectOf_fail _
    · exact h.effectOf_endCommand _ _ _ _
  | index sd => exact h.effectOf_withStore sd fun st => h.effectOf_withIndex st fun _ => h.effectOf_finish _
  | sethash sd =>
    exact h.effectOf_withStore sd fun st => h.effectOf_withIndex st fun _ => (h.setStore _ _).effectOf_finish _
  | gethash sd => exact h.effectOf_withStore sd fun st => h.effectOf_withIndex st fun _ => h.effectOf_finish _

end State.SameInputs

/-! ## Repeating a command (20_memory.md R46) -/

/-- The command completes in this state and leaves its stores and its response record as they are. -/
def Repeats (i : Instr) (t : State) : Prop := ∃ u, exec i t = .next u ∧ u.stores = t.stores ∧ u.resp = t.resp

/-- A command that left the build, the command record and the stores alone does the same again. -/
theorem State.SameInputs.repeats {i : Instr} {s t : State} (same : s.SameInputs t) (h : exec i s = .next t) :
    Repeats i t := by
  apply effectOf_eq_some.mp
  rw [same.effectOf_exec, h]
  rfl

theorem State.sameInputs_endCommand {s t : State} {e : ErrCode} {r : Word} {outb : List Byte} {outs : List Word}
    (h : (.next (s.endCommand e r outb outs) : StepResult) = .next t) : s.SameInputs t := by
  obtain rfl := Host.Outcome.next.inj h
  exact ⟨rfl, rfl, rfl⟩

theorem State.sameInputs_failed (s : State) (e : Nat) : s.SameInputs (s.failed e) := ⟨rfl, rfl, rfl⟩

/-- A command that writes no slot changes STATUS and the response record, and nothing else (10_state.md R26). -/
theorem exec_eq_of_writes_none {i : Instr} {s t : State} (h : exec i s = .next t) (hw : i.writes = none) :
    t = { s with status := t.status, resp := t.resp } := by
  rcases exec_cases h with ⟨e, -, rfl⟩ | ⟨r, outb, outs, rfl⟩ | ⟨d, st, st', r, hd, -, -, rfl⟩
  · rfl
  · rfl
  · rw [hw] at hd
    exact absurd hd (by simp)

theorem repeats_of_writes_none {i : Instr} {s t : State} (hw : i.writes = none) (h : exec i s = .next t) :
    Repeats i t := by
  have ht := exec_eq_of_writes_none h hw
  exact State.SameInputs.repeats (by rw [ht]; exact ⟨rfl, rfl, rfl⟩) h

/-- A write to a slot that is there, once it has ended its command, is what the slot holds. -/
theorem State.holds.after_write {s : State} {slot : Slot} {st : Store} (h : s.holds slot st) (x : Store) (r : Word) :
    ((s.setStore slot x).endCommand .ok r [] []).holds slot x := by
  obtain ⟨hlegal, hget⟩ := h
  have hlt : slot.toNat < s.stores.length := (List.getElem?_eq_some_iff.mp hget).1
  exact ⟨hlegal, by simp [hlt]⟩

/-- A command repeats when, in the state its write of x led to, it writes x again with the same result. -/
theorem repeats_of_same_write {i : Instr} {s t : State} {slot : Slot} {x : Store} {r : Word}
    (h : (s.setStore slot x).finish r = .next t) (again : exec i t = (t.setStore slot x).finish r) : Repeats i t := by
  obtain rfl := Host.Outcome.next.inj h
  exact ⟨_, again, by simp, rfl⟩

/-- Setting a bit twice is setting it once; beyond the size neither does anything. -/
@[simp] theorem Store.orBit_orBit (st : Store) (i : Nat) : (st.orBit i).orBit i = st.orBit i := by
  simp only [Store.orBit, Store.setWord, Store.word, Store.mk.injEq]
  rcases Nat.lt_or_ge (wordIndex i) st.words.length with hk | hk
  · simp [List.getD_eq_getElem?_getD, hk, BitVec.or_assoc]
  · simp [List.set_eq_of_length_le hk]

/-- A command that gives a slot a store built from the command record alone, or reports CAPACITY, repeats: the second
time it builds the same store. -/
theorem repeats_of_build {i : Instr} {sd : Slot} {s t : State} (words : Command → Nat) (build : Command → Store)
    (result : Command → Word)
    (rule : ∀ u : State, exec i u = u.withStore sd fun _ =>
      if words u.cmd > u.cfg.maxWords then u.fail .capacity
      else (u.setStore sd (build u.cmd)).finish (result u.cmd))
    (h : exec i s = .next t) : Repeats i t := by
  rcases withStore_next ((rule s).symm.trans h) with ⟨-, rfl⟩ | ⟨st, hst, hk⟩
  · exact (s.sameInputs_failed 3).repeats h
  split at hk
  case isTrue => exact (State.sameInputs_endCommand hk).repeats h
  case isFalse hfits =>
    refine repeats_of_same_write hk ?_
    obtain rfl := Host.Outcome.next.inj hk
    exact (rule _).trans ((withStore_of_holds (hst.after_write _ _) _).trans (if_neg hfits))

theorem repeats_new {sd : Slot} {s t : State} (h : exec (.new sd) s = .next t) : Repeats (.new sd) t :=
  repeats_of_build (fun c => wordsForBits c.a.toNat) (fun c => Store.zeros (wordsForBits c.a.toNat))
    (fun c => toPort (wordsForBits c.a.toNat * 64)) (fun _ => rfl) h

theorem repeats_decode {sd : Slot} {s t : State} (h : exec (.decode sd) s = .next t) : Repeats (.decode sd) t :=
  repeats_of_build (fun c => c.input.length / 8) (fun c => Store.ofImage c.input)
    (fun c => toPort (Store.ofImage c.input).size) (fun _ => rfl) h

theorem repeats_setbit {sd : Slot} {s t : State} (h : exec (.setbit sd) s = .next t) : Repeats (.setbit sd) t := by
  rcases withStore_next h with ⟨-, rfl⟩ | ⟨st, hst, hk⟩
  · exact (s.sameInputs_failed 3).repeats h
  split at hk
  case isTrue hlt =>
    refine repeats_of_same_write hk ?_
    obtain rfl := Host.Outcome.next.inj hk
    refine (withStore_of_holds (hst.after_write _ _) _).trans ?_
    simp [hlt]
  case isFalse => exact (State.sameInputs_endCommand hk).repeats h

/-- COPY into a slot reaches its source's store again: the source is another slot, or it is the slot just written, which
holds the same store. -/
theorem repeats_copy {sd ss : Slot} {s t : State} (h : exec (.copy sd ss) s = .next t) : Repeats (.copy sd ss) t := by
  rcases withStore_next h with ⟨-, rfl⟩ | ⟨x, hx, hk⟩
  · exact (s.sameInputs_failed 3).repeats h
  rcases withStore_next hk with ⟨-, rfl⟩ | ⟨y, hy, hk⟩
  · exact (s.sameInputs_failed 3).repeats h
  refine repeats_of_same_write hk ?_
  obtain rfl := Host.Outcome.next.inj hk
  have source : ((s.setStore sd y).endCommand .ok 0 [] []).holds ss y := by
    by_cases hne : sd = ss
    · exact hne ▸ hx.after_write y 0
    · refine ⟨hy.1, ?_⟩
      have : sd.toNat ≠ ss.toNat := fun e => hne (BitVec.eq_of_toNat_eq e)
      simp [List.getElem?_set_ne this, hy.2]
  exact (withStore_of_holds (hx.after_write y 0) _).trans (withStore_of_holds source _)

theorem repeats_sethash {sd : Slot} {s t : State} (h : exec (.sethash sd) s = .next t) : Repeats (.sethash sd) t := by
  rcases withStore_next h with ⟨-, rfl⟩ | ⟨st, hst, hk⟩
  · exact (s.sameInputs_failed 3).repeats h
  obtain ⟨hpos, hk⟩ := withIndex_next hk
  refine repeats_of_same_write hk ?_
  obtain rfl := Host.Outcome.next.inj hk
  refine (withStore_of_holds (hst.after_write _ _) _).trans ?_
  have hsize : ∀ j, (st.orBit j).size = st.size := fun j => by simp [Store.size]
  rw [withIndex_of_pos (by rwa [hsize]), hsize]
  simp

/-- Every command that completes repeats: one that writes no slot by its frame, one that writes by writing the same
store again. -/
theorem exec_repeats {i : Instr} {s t : State} (h : exec i s = .next t) : Repeats i t := by
  cases i with
  | new sd => exact repeats_new h
  | setbit sd => exact repeats_setbit h
  | copy sd ss => exact repeats_copy h
  | decode sd => exact repeats_decode h
  | sethash sd => exact repeats_sethash h
  | size sd => exact repeats_of_writes_none rfl h
  | getbit sd => exact repeats_of_writes_none rfl h
  | count sd => exact repeats_of_writes_none rfl h
  | equals sd ss => exact repeats_of_writes_none rfl h
  | encode sd => exact repeats_of_writes_none rfl h
  | mux => exact repeats_of_writes_none rfl h
  | index sd => exact repeats_of_writes_none rfl h
  | gethash sd => exact repeats_of_writes_none rfl h

/-- Settles O38: the frame of the commands that write no slot, and `exec_repeats`. -/
theorem repeatingACommandChangesNoStore : Obligations.RepeatingACommandChangesNoStore := fun _ _ _ h =>
  ⟨exec_eq_of_writes_none h, exec_repeats h⟩

end Sys2Proof.Machine

namespace Sys2Proof

/-! ## A command word is its four fields (30_encoding.md R60) -/

theorem append_fields (cw : CmdWord) : cwRsv cw ++ cwSs cw ++ cwSd cw ++ cwOp cw = cw := by
  simp only [cwRsv, cwSs, cwSd, cwOp]
  rw [BitVec.extractLsb'_append_extractLsb'_eq_extractLsb' (show 16 = 12 + 4 from rfl),
    BitVec.extractLsb'_append_extractLsb'_eq_extractLsb' (show 12 = 8 + 4 from rfl),
    BitVec.extractLsb'_append_extractLsb'_eq_extractLsb' (show 8 = 0 + 8 from rfl)]
  exact BitVec.extractLsb'_eq_self

theorem eq_iff_fields {x y : CmdWord} :
    x = y ↔ cwRsv x = cwRsv y ∧ cwSs x = cwSs y ∧ cwSd x = cwSd y ∧ cwOp x = cwOp y := by
  constructor
  · rintro rfl
    exact ⟨rfl, rfl, rfl, rfl⟩
  · rintro ⟨hrsv, hss, hsd, hop⟩
    rw [← append_fields x, hrsv, hss, hsd, hop, append_fields]

theorem cwRsv_and (x y : CmdWord) : cwRsv (x &&& y) = cwRsv x &&& cwRsv y := BitVec.extractLsb'_and
theorem cwSs_and (x y : CmdWord) : cwSs (x &&& y) = cwSs x &&& cwSs y := BitVec.extractLsb'_and
theorem cwSd_and (x y : CmdWord) : cwSd (x &&& y) = cwSd x &&& cwSd y := BitVec.extractLsb'_and
theorem cwOp_and (x y : CmdWord) : cwOp (x &&& y) = cwOp x &&& cwOp y := BitVec.extractLsb'_and

theorem cwOp_toNat (cw : CmdWord) : (cwOp cw).toNat = cw.toNat % 256 := by
  simp [cwOp, BitVec.extractLsb'_toNat]

/-! ## The mask test is the decoder's check of the reserved fields (30_encoding.md R62, R64) -/

/-- The match value of a word is the word with the same opcode and every other field 0. -/
theorem opMatch_eq_layout (cw : CmdWord) : opMatch cw = layout (cwOp cw) 0 0 := by
  apply BitVec.eq_of_toNat_eq
  simp only [opMatch, layout, BitVec.toNat_append, BitVec.toNat_ofNat, cwOp_toNat]
  simpa using (by omega : cw.toNat % 256 < 2 ^ 32)

/-- The mask of a format: RSV and OP in full, and the slot fields that the format leaves unused (30_encoding.md R62). -/
def Format.mask : Format → CmdWord
  | .oneStore => 0xFFFFF0FF
  | .twoStores => 0xFFFF00FF
  | .noStore => 0xFFFFFFFF

/-- Under a mask that takes RSV and OP in full, a word matches its opcode where RSV and the masked slot bits are 0. -/
theorem and_mask_eq_opMatch_iff (cw : CmdWord) {mask : CmdWord} {ssMask sdMask : Slot} (hrsv : cwRsv mask = 0xFFFF)
    (hss : cwSs mask = ssMask) (hsd : cwSd mask = sdMask) (hop : cwOp mask = 0xFF) :
    cw &&& mask = opMatch cw ↔ cwRsv cw = 0 ∧ cwSs cw &&& ssMask = 0 ∧ cwSd cw &&& sdMask = 0 := by
  have rsvFull : cwRsv cw &&& 0xFFFF = cwRsv cw := BitVec.and_allOnes
  have opFull : cwOp cw &&& 0xFF = cwOp cw := BitVec.and_allOnes
  rw [eq_iff_fields, opMatch_eq_layout, cwRsv_layout, cwSs_layout, cwSd_layout, cwOp_layout, cwRsv_and, cwSs_and,
    cwSd_and, cwOp_and, hrsv, hss, hsd, hop, rsvFull, opFull]
  simp only [and_true]

theorem Format.mask_test_iff (f : Format) (cw : CmdWord) :
    cw &&& f.mask = opMatch cw ↔ cwRsv cw = 0 ∧ f.unusedZero (cwSd cw) (cwSs cw) = true := by
  have used (x : Slot) : x &&& 0 = 0 := BitVec.and_zero
  have unused (x : Slot) : x &&& 0xF = x := BitVec.and_allOnes
  cases f with
  | oneStore =>
    rw [and_mask_eq_opMatch_iff cw (ssMask := 0xF) (sdMask := 0) rfl rfl rfl rfl, unused, used]
    simp [unusedZero]
  | twoStores =>
    rw [and_mask_eq_opMatch_iff cw (ssMask := 0) (sdMask := 0) rfl rfl rfl rfl, used, used]
    simp [unusedZero]
  | noStore =>
    rw [and_mask_eq_opMatch_iff cw (ssMask := 0xF) (sdMask := 0xF) rfl rfl rfl rfl, unused, unused]
    simp [unusedZero, and_comm]

/-! ## The opcode map has an entry for the legal opcodes alone (30_encoding.md R63, R67) -/

theorem illegal_of_opcodeMap_none {op : BitVec 8} {sd ss : Slot} (h : opcodeMap op sd ss = none) :
    ¬ (1 ≤ op.toNat ∧ op.toNat ≤ 13) := by
  unfold opcodeMap at h
  split at h
  case h_14 =>
    simp only [imp_false] at *
    omega
  all_goals cases h

/-- An opcode with an entry has the mask of the entry's format. -/
theorem legal_and_mask_of_opcodeMap_some {op : BitVec 8} {sd ss : Slot} {f : Format} {i : Instr}
    (h : opcodeMap op sd ss = some (f, i)) :
    (1 ≤ op.toNat ∧ op.toNat ≤ 13) ∧ opMask op.toNat = f.mask := by
  unfold opcodeMap at h
  split at h
  case h_14 => cases h
  all_goals
    rename_i hop
    cases h
    rw [hop]
    decide

/-! ## What the decoder answers (30_encoding.md R64) -/

theorem decode_of_opcodeMap_none {cw : CmdWord} (h : opcodeMap (cwOp cw) (cwSd cw) (cwSs cw) = none) :
    decode cw = .error .illegalOpcode := by
  rw [decode, h]

theorem decode_of_opcodeMap_some {cw : CmdWord} {f : Format} {i : Instr}
    (h : opcodeMap (cwOp cw) (cwSd cw) (cwSs cw) = some (f, i)) :
    decode cw = if cw &&& f.mask = opMatch cw then .ok i else .error .reservedField := by
  simp only [decode, h, f.mask_test_iff, ite_not, ite_and]

/-- Settles O3: a word whose opcode has no entry in the map is an illegal opcode, and one whose opcode has an entry is
accepted or rejected by the mask test of the entry's format. -/
theorem decoderClassifiesEveryWord : Obligations.DecoderClassifiesEveryWord := by
  intro cw
  cases h : opcodeMap (cwOp cw) (cwSd cw) (cwSs cw) with
  | none =>
    have hlegal : ¬ legalOp cw := by
      rw [legalOp, ← cwOp_toNat]
      exact illegal_of_opcodeMap_none h
    simp [decode_of_opcodeMap_none h, hlegal]
  | some entry =>
    obtain ⟨f, i⟩ := entry
    obtain ⟨hlegal, hmask⟩ := cwOp_toNat cw ▸ legal_and_mask_of_opcodeMap_some h
    rw [decode_of_opcodeMap_some h, hmask]
    by_cases htest : cw &&& f.mask = opMatch cw <;> simp [legalOp, hlegal, htest]

end Sys2Proof

namespace Sys2Proof

/-! ## The command words written by shifts (30_encoding.md R60) -/

/-- The word written by shifts is the word laid out from its fields. -/
theorem wordOf_eq_layout (op : BitVec 8) (sd ss : Slot) : wordOf op.toNat sd ss = layout op sd ss := by
  simp only [wordOf, layout, BitVec.ofNat_toNat]
  apply BitVec.eq_of_getLsbD_eq
  intro i hi
  simp only [BitVec.getLsbD_or, BitVec.getLsbD_append, BitVec.getLsbD_shiftLeft, BitVec.getLsbD_setWidth]
  rcases Nat.lt_or_ge i 8 with h8 | h8
  · simp [hi, h8, show i < 12 by omega]
  have hop : op.getLsbD i = false := BitVec.getLsbD_of_ge op i h8
  rcases Nat.lt_or_ge i 12 with h12 | h12
  · simp [hi, h8.not_gt, h12, hop, show i - 8 < 4 by omega, show i - 8 < 32 by omega]
  · have hsd : sd.getLsbD (i - 8) = false := BitVec.getLsbD_of_ge sd (i - 8) (by omega)
    simpa [hi, h8.not_gt, h12.not_gt, hop, hsd, show ¬ i - 8 < 4 by omega, show i - 12 < 32 by omega, Nat.sub_sub]
      using BitVec.lt_of_getLsbD

theorem decode_layout {op : BitVec 8} {sd ss : Slot} {f : Format} {i : Instr} (h : opcodeMap op sd ss = some (f, i))
    (unused : f.unusedZero sd ss = true) : decode (layout op sd ss) = .ok i := by
  simp [decode, cwOp_layout, cwSd_layout, cwSs_layout, cwRsv_layout, h, unused]

/-- A word whose opcode has an entry, with the slot fields that the entry's format leaves unused at 0, decodes to the
entry's command. -/
theorem decode_wordOf (op : BitVec 8) {sd ss : Slot} {f : Format} {i : Instr} (h : opcodeMap op sd ss = some (f, i))
    (unused : f.unusedZero sd ss = true) : decode (wordOf op.toNat sd ss) = .ok i := by
  rw [wordOf_eq_layout, decode_layout h unused]

end Sys2Proof

namespace Sys2Proof.Machine

/-! ## Numbers as port values, and indices against the size of a store -/

theorem toPort_toNat {n : Nat} (h : n < 2 ^ 64) : (toPort n).toNat = n := by
  rw [toPort, BitVec.toNat_ofNat, Nat.mod_eq_of_lt h]

/-- The size of a store of at most MAX_WORDS words fits a port (00_scope.md R5). -/
theorem bits_lt_of_legal {c : Config} (h : c.legal) {n : Nat} (hn : n ≤ c.maxWords) : n * 64 < 2 ^ 64 := by
  obtain ⟨-, -, -, hmax, -⟩ := h
  omega

/-- In a state whose stores are as the spec allows them, a store that a slot holds is legal. -/
theorem legal_of_holds {s : State} {slot : Slot} {st : Store} (h : s.storesOk) (hst : s.holds slot st) :
    st.legal s.cfg.maxWords := by
  obtain ⟨-, -, hlegal⟩ := h
  exact hlegal st (List.mem_of_getElem? hst.2)

theorem wordIndex_lt_wc {st : Store} {i : Nat} : wordIndex i < st.wc ↔ i < st.size :=
  Nat.div_lt_iff_lt_mul (by decide)

/-! ## What each BitStore command does to a slot it reaches -/

section
variable {s : State} {sd ss : Slot} {st y : Store}

theorem exec_new (h : s.holds sd st) : exec (.new sd) s =
    if wordsForBits s.cmd.a.toNat > s.cfg.maxWords then .next (s.failed 4)
    else .next (s.succeeded (s.stores.set sd.toNat (Store.zeros (wordsForBits s.cmd.a.toNat)))
      (toPort (wordsForBits s.cmd.a.toNat * 64)) [] []) := by
  refine (withStore_of_holds h _).trans ?_
  dsimp only
  rw [setStore_finish_eq, fail_eq s .capacity (by decide)]
  rfl

theorem exec_size (h : s.holds sd st) :
    exec (.size sd) s = .next (s.succeeded s.stores (toPort st.size) [] []) :=
  (withStore_of_holds h _).trans (finish_eq s _)

theorem exec_setbit_of_lt (h : s.holds sd st) (hlt : s.cmd.a.toNat < st.size) :
    exec (.setbit sd) s = .next (s.succeeded (s.stores.set sd.toNat (st.orBit s.cmd.a.toNat)) 0 [] []) := by
  rw [← setStore_finish_eq]
  exact (withStore_of_holds h _).trans (if_pos (wordIndex_lt_wc.mpr hlt))

theorem exec_setbit_of_ge (h : s.holds sd st) (hge : st.size ≤ s.cmd.a.toNat) :
    exec (.setbit sd) s = .next (s.succeeded s.stores 0 [] []) := by
  rw [← finish_eq]
  exact (withStore_of_holds h _).trans (if_neg (wordIndex_lt_wc.not.mpr hge.not_gt))

theorem exec_getbit_of_lt (h : s.holds sd st) (hlt : s.cmd.a.toNat < st.size) :
    exec (.getbit sd) s = .next (s.succeeded s.stores (if st.bit s.cmd.a.toNat then 1 else 0) [] []) := by
  rw [← finish_eq, ← st.bitWord_eq]
  exact (withStore_of_holds h _).trans (if_neg (wordIndex_lt_wc.mpr hlt).not_ge)

theorem exec_getbit_of_ge (h : s.holds sd st) (hge : st.size ≤ s.cmd.a.toNat) :
    exec (.getbit sd) s = .next (s.failed 5) := by
  have hout : wordIndex s.cmd.a.toNat ≥ st.wc := not_lt.mp (wordIndex_lt_wc.not.mpr hge.not_gt)
  exact ((withStore_of_holds h _).trans (if_pos hout)).trans (fail_eq s .getOutOfRange (by decide))

theorem exec_count (h : s.holds sd st) :
    exec (.count sd) s = .next (s.succeeded s.stores (toPort (st.words.map popcount).sum) [] []) :=
  (withStore_of_holds h _).trans (finish_eq s _)

theorem exec_equals (hx : s.holds sd st) (hy : s.holds ss y) :
    exec (.equals sd ss) s = .next (s.succeeded s.stores (boolWord (decide (st.words = y.words))) [] []) :=
  ((withStore_of_holds hx _).trans (withStore_of_holds hy _)).trans (finish_eq s _)

end

/-! ## NEW -/

/-- Settles O12: NEW on a slot it reaches, with the rounding of `wordsForBits_eq`; in a legal build 64 n fits R. -/
theorem newBuildsZeroStoreOrReportsCapacity : Obligations.NewBuildsZeroStoreOrReportsCapacity := by
  intro s sd st n hcfg hst hn
  rw [← wordsForBits_eq] at hn
  subst hn
  exact ⟨decode_wordOf 0x01 rfl rfl,
    fun hfits => ⟨_, toPort_toNat (bits_lt_of_legal hcfg hfits), (exec_new hst).trans (if_neg hfits.not_gt)⟩,
    fun hover => (exec_new hst).trans (if_pos hover)⟩

theorem popcount_sum_zeros (n : Nat) : ((Store.zeros n).words.map popcount).sum = 0 := by
  simp [Store.zeros, popcount]

/-- A NEW that ends without error leaves zeros in its slot. -/
theorem exists_holds_zeros_of_new {s t : State} {sd : Slot} (h : exec (.new sd) s = .next t) (herr : t.resp.err = 0) :
    ∃ n, t.holds sd (Store.zeros n) := by
  rcases withStore_next h with ⟨-, rfl⟩ | ⟨st, hst, -⟩
  · exact absurd herr (by decide : (3 : BitVec 8) ≠ 0)
  rw [exec_new hst] at h
  split at h <;> obtain rfl := Host.Outcome.next.inj h
  · exact absurd herr (by decide : (4 : BitVec 8) ≠ 0)
  · exact ⟨_, hst.after_write _ 0⟩

/-- Settles O13: the slot holds zeros after the NEW, so the bit GETBIT reads and the sum COUNT answers are 0. -/
theorem freshStoreIsAllZero : Obligations.FreshStoreIsAllZero := by
  intro s t sd _ hnew herr c
  obtain ⟨n, hzeros⟩ := exists_holds_zeros_of_new hnew herr
  have hlatched : (t.latch c).holds sd (Store.zeros n) := hzeros
  have hsize : t.wcAt sd.toNat * 64 = (Store.zeros n).size := by simp only [State.wcAt, hzeros.2, Store.size]
  refine ⟨fun hlt => ⟨_, exec_getbit_of_lt hlatched (hsize ▸ hlt), ?_, rfl⟩, ⟨_, exec_count hlatched, ?_⟩⟩
  · simp [State.succeeded, Store.zeros_bit]
  · simp [State.succeeded, popcount_sum_zeros, toPort]

/-! ## SIZE -/

/-- Settles O14: in a state whose stores are legal, the size of a store is at least 64 and fits R. -/
theorem sizeReturnsBitCapacity : Obligations.SizeReturnsBitCapacity := by
  intro s sd st hok hst
  obtain ⟨hpos, hmax⟩ := legal_of_holds hok hst
  have hr : (toPort st.size).toNat = st.wc * 64 := toPort_toNat (bits_lt_of_legal hok.1 hmax)
  exact ⟨decode_wordOf 0x02 rfl rfl, _, hr, by omega, exec_size hst⟩

/-! ## SETBIT and GETBIT -/

/-- Settles O15: SETBIT on a slot it reaches, in and out of range. -/
theorem setbitOrsOneBitOrDoesNothing : Obligations.SetbitOrsOneBitOrDoesNothing := fun _ _ _ hst =>
  ⟨decode_wordOf 0x03 rfl rfl, exec_setbit_of_lt hst, exec_setbit_of_ge hst⟩

/-- Settles O17: GETBIT on a slot it reaches, in and out of range. -/
theorem getbitReturnsBitOrReportsRange : Obligations.GetbitReturnsBitOrReportsRange := fun _ _ _ hst =>
  ⟨decode_wordOf 0x04 rfl rfl, exec_getbit_of_lt hst, exec_getbit_of_ge hst⟩

theorem State.holds.bitAt_eq {s : State} {slot : Slot} {st : Store} (h : s.holds slot st) (i : Nat) :
    s.bitAt slot.toNat i = st.bit i := by
  simp only [State.bitAt, h.2]

theorem State.bitAt_congr {s t : State} {k : Nat} (h : t.stores[k]? = s.stores[k]?) (i : Nat) :
    t.bitAt k i = s.bitAt k i := by
  simp only [State.bitAt, h]

/-- Setting an in-range bit of a slot changes no other bit of any slot (40_bitstore.md R108). -/
theorem bitAt_of_set_orBit {s t : State} {slot : Slot} {st : Store} {i : Nat} (hs : s.holds slot st)
    (hi : i < st.size) (ht : t.holds slot (st.orBit i)) (hset : t.stores = s.stores.set slot.toNat (st.orBit i))
    {k j : Nat} (hne : (k, j) ≠ (slot.toNat, i)) : t.bitAt k j = s.bitAt k j := by
  by_cases hk : k = slot.toNat
  · subst hk
    have hj : j ≠ i := fun e => hne (by rw [e])
    rw [ht.bitAt_eq, hs.bitAt_eq, st.bit_orBit hi]
    simp [hj]
  · exact State.bitAt_congr (by rw [hset, List.getElem?_set_ne (Ne.symm hk)]) j

/-- Settles O16: the slot holds the store with the bit set, which GETBIT then reads, and no other bit changed. -/
theorem setThenGet : Obligations.SetThenGet := by
  intro s sd st hst hlt
  have hset := hst.after_write (st.orBit s.cmd.a.toNat) 0
  refine ⟨_, exec_setbit_of_lt hst hlt, fun c hc => ?_, fun k i => bitAt_of_set_orBit hst hlt hset rfl⟩
  refine ⟨_, exec_getbit_of_lt (st := st.orBit s.cmd.a.toNat) hset ?_, ?_⟩
  · simpa [hc, Store.size] using hlt
  · simp [State.succeeded, hc, st.bit_orBit hlt]

/-! ## COUNT -/

/-- The population counts of all words sum to the number of set bits below the size (40_bitstore.md R113). -/
theorem popcount_sum_eq_countP (ws : List Word) :
    (ws.map popcount).sum = (List.range (ws.length * 64)).countP (Store.bit ⟨ws⟩) := by
  induction ws with
  | nil => rfl
  | cons w ws ih =>
    have hsplit : (w :: ws).length * 64 = 64 + ws.length * 64 := by simp only [List.length_cons]; omega
    have hlow : (List.range 64).countP (Store.bit ⟨w :: ws⟩) = popcount w := by
      refine List.countP_congr fun i hi => ?_
      have hi : i < 64 := List.mem_range.mp hi
      simp [Store.bit, Nat.div_eq_of_lt hi, Nat.mod_eq_of_lt hi]
    have hhigh : Store.bit ⟨w :: ws⟩ ∘ (64 + ·) = Store.bit ⟨ws⟩ := by
      funext i
      simp [Store.bit, show (64 + i) / 64 = i / 64 + 1 by omega]
    rw [List.map_cons, List.sum_cons, ih, hsplit, List.range_add, List.countP_append, List.countP_map, hlow, hhigh]

/-- Settles O18: the sum that COUNT answers is the number of set bits, which is at most the size and so fits R. -/
theorem countReturnsNumberOfSetBits : Obligations.CountReturnsNumberOfSetBits := by
  intro s sd st hok hst
  have hsize : st.wc * 64 < 2 ^ 64 := bits_lt_of_legal hok.1 (legal_of_holds hok hst).2
  have hcount : (List.range (st.wc * 64)).countP st.bit ≤ st.wc * 64 :=
    List.countP_le_length.trans_eq List.length_range
  have hexec := exec_count hst
  rw [popcount_sum_eq_countP] at hexec
  exact ⟨decode_wordOf 0x05 rfl rfl, _, toPort_toNat (hcount.trans_lt hsize), hexec⟩

/-! ## EQUALS -/

/-- Two stores have the same words when their word counts agree and every word agrees. -/
theorem Store.words_eq_iff {x y : Store} :
    x.words = y.words ↔ x.wc = y.wc ∧ ∀ k < x.wc, x.words.getD k 0 = y.words.getD k 0 := by
  constructor
  · intro h
    exact ⟨congrArg List.length h, fun k _ => by rw [h]⟩
  · rintro ⟨hwc, hwords⟩
    refine List.ext_getElem hwc fun k hx hy => ?_
    simpa [hx, hy] using hwords k hx

/-- Settles O19: the comparison of the word lists that EQUALS makes is that of the word counts and every word. -/
theorem equalsComparesWordForWord : Obligations.EqualsComparesWordForWord := by
  intro s sd ss x y hx hy
  refine ⟨decode_wordOf 0x06 rfl rfl, ?_⟩
  simp only [exec_equals hx hy, boolWord, decide_eq_true_eq, Store.words_eq_iff]

end Sys2Proof.Machine

namespace Sys2Proof.Machine

/-! ## What ENCODE and DECODE do to a slot they reach -/

section
variable {s : State} {sd : Slot} {st : Store}

theorem exec_encode (h : s.holds sd st) : exec (.encode sd) s =
    .next (s.succeeded s.stores (toPort (8 * st.wc)) (imageOf st.words) []) :=
  (withStore_of_holds h _).trans (congrArg _ (endCommand_ok s _ _ _))

theorem exec_decode_of_over (h : s.holds sd st) (hover : s.cfg.maxWords < s.cmd.input.length / 8) :
    exec (.decode sd) s = .next (s.failed 4) :=
  ((withStore_of_holds h _).trans (if_pos hover)).trans (fail_eq s .capacity (by decide))

theorem exec_decode_of_fits (h : s.holds sd st) (hfits : s.cmd.input.length / 8 ≤ s.cfg.maxWords) :
    exec (.decode sd) s = .next (s.succeeded (s.stores.set sd.toNat (Store.ofImage s.cmd.input))
      (toPort (Store.ofImage s.cmd.input).size) [] []) :=
  ((withStore_of_holds h _).trans (if_neg hfits.not_gt)).trans (setStore_finish_eq s sd _ _)

end

/-! ## The store an image stands for (41_serialization.md R142, R146) -/

theorem ofImage_of_short {bs : List Byte} (h : bs.length < 8) : Store.ofImage bs = Store.oneZero :=
  if_pos (Nat.div_eq_of_lt h)

theorem ofImage_of_chunks {bs : List Byte} (h : 8 ≤ bs.length) : Store.ofImage bs = ⟨parseWords bs⟩ :=
  if_neg (Nat.div_pos h (by decide)).ne'

/-- The image of a store stands for that store (41_serialization.md R144). -/
theorem ofImage_imageOf {st : Store} (hpos : 1 ≤ st.wc) : Store.ofImage (imageOf st.words) = st := by
  have hlen : 8 ≤ (imageOf st.words).length := by
    rw [imageOf_length]
    exact Nat.le_mul_of_pos_right 8 hpos
  rw [ofImage_of_chunks hlen, parseWords_imageOf]

/-- The image of the store that bytes stand for is the bytes without their remainder, or that of one zero word
(41_serialization.md R147). -/
theorem imageOf_ofImage (bs : List Byte) : imageOf (Store.ofImage bs).words =
    if bs.length < 8 then List.replicate 8 0 else bs.take (8 * (bs.length / 8)) := by
  split
  case isTrue hshort =>
    rw [ofImage_of_short hshort]
    decide
  case isFalse hchunks => rw [ofImage_of_chunks (not_lt.mp hchunks), imageOf_parseWords]

/-! ## ENCODE -/

/-- Settles O22: ENCODE on a slot it reaches answers the image, whose bytes `imageOf_byte` gives; in a state whose
stores are legal its length fits R. -/
theorem encodeEmitsLittleEndianImage : Obligations.EncodeEmitsLittleEndianImage := by
  intro s sd st hok hst
  obtain ⟨-, hmax⟩ := legal_of_holds hok hst
  have hbits : st.wc * 64 < 2 ^ 64 := bits_lt_of_legal hok.1 hmax
  exact ⟨decode_wordOf 0x08 rfl rfl, _, _, exec_encode hst, toPort_toNat (by omega), imageOf_length st.words,
    fun _ hk _ hj => imageOf_byte st.words hk hj⟩

/-! ## DECODE -/

/-- Settles O24: DECODE on a slot it reaches, with the words that `parseWords_byte` gives; in a legal build their bits
fit R. -/
theorem decodeLoadsCompleteChunks : Obligations.DecodeLoadsCompleteChunks := by
  intro s sd st hcfg hst
  refine ⟨decode_wordOf 0x09 rfl rfl, exec_decode_of_over hst, fun hshort => ?_, fun hchunks hfits => ?_⟩
  · have hfits : s.cmd.input.length / 8 ≤ s.cfg.maxWords := by
      rw [Nat.div_eq_of_lt hshort]
      exact Nat.zero_le _
    rw [exec_decode_of_fits hst hfits, ofImage_of_short hshort]
    rfl
  · have hexec := exec_decode_of_fits hst hfits
    rw [ofImage_of_chunks hchunks] at hexec
    have hlen := parseWords_length s.cmd.input
    exact ⟨_, _, hexec, hlen, toPort_toNat (bits_lt_of_legal hcfg (hlen.trans_le hfits)),
      fun _ hk _ hj => parseWords_byte s.cmd.input (hk.trans_eq hlen) hj⟩

/-! ## Round trips (41_serialization.md R144, R147, R148) -/

/-- A write of the store that a slot holds, into any slot, leaves the first slot holding it. -/
theorem State.holds.after_write_of_same {s : State} {a d : Slot} {x y : Store} (ha : s.holds a x) (hd : s.holds d y)
    (r : Word) : (s.succeeded (s.stores.set d.toNat x) r [] []).holds a x := by
  by_cases hne : d = a
  · exact hne ▸ hd.after_write x r
  · have hnat : d.toNat ≠ a.toNat := fun e => hne (BitVec.eq_of_toNat_eq e)
    exact ⟨ha.1, (List.getElem?_set_ne hnat).trans ha.2⟩

/-- DECODE of the image of a slot's store into any slot completes, and both slots then hold that store. -/
theorem exists_holds_of_decode_image {s : State} {a d : Slot} {st : Store} (hok : s.storesOk) (ha : s.holds a st)
    (hd : s.cfg.slotLegal d = true) (himage : s.cmd.input = imageOf st.words) :
    ∃ u, exec (.decode d) s = .next u ∧ u.holds d st ∧ u.holds a st := by
  obtain ⟨hpos, hmax⟩ := legal_of_holds hok ha
  obtain ⟨y, hy, -⟩ := hok.reach hd
  have hfits : s.cmd.input.length / 8 ≤ s.cfg.maxWords := by
    rwa [himage, imageOf_length, Nat.mul_div_cancel_left _ (by decide)]
  have hexec := exec_decode_of_fits hy hfits
  rw [himage, ofImage_imageOf hpos] at hexec
  exact ⟨_, hexec, hy.after_write st (toPort st.size), ha.after_write_of_same hy _⟩

/-- ENCODE of a slot, then DECODE of its output into any slot, complete, and both slots then hold the store that was
encoded. -/
theorem exists_holds_of_encode_decode {s : State} {a d : Slot} (hok : s.storesOk) (ha : s.cfg.slotLegal a = true)
    (hd : s.cfg.slotLegal d = true) (c : Command) :
    ∃ st t, s.holds a st ∧ exec (.encode a) s = .next t ∧
      (c.input = t.resp.outb → ∃ u, exec (.decode d) (t.latch c) = .next u ∧ u.holds d st ∧ u.holds a st) := by
  obtain ⟨st, hst, -⟩ := hok.reach ha
  exact ⟨st, _, hst, exec_encode hst, exists_holds_of_decode_image (s := State.latch _ c) hok hst hd⟩

/-- Settles O25: after the DECODE both slots hold the store that was encoded, so EQUALS compares its words with
themselves. -/
theorem decodedImageEqualsItsStore : Obligations.DecodedImageEqualsItsStore := by
  intro s a d c c' hok ha hd
  obtain ⟨st, t, -, hencode, hround⟩ := exists_holds_of_encode_decode hok ha hd c
  refine ⟨t, hencode, fun himage => ?_⟩
  obtain ⟨u, hdecode, hud, hua⟩ := hround himage
  have hequals := exec_equals (s := u.latch c') hud hua
  exact ⟨u, _, hdecode, hequals, by simp [State.succeeded, boolWord]⟩

/-- Settles O26: the DECODE leaves the store that the input stands for, whose image `imageOf_ofImage` gives. -/
theorem encodeAfterDecodeDropsRemainder : Obligations.EncodeAfterDecodeDropsRemainder := by
  intro s sd c hok hsd hlen
  obtain ⟨st, hst, -⟩ := hok.reach hsd
  have hfits : s.cmd.input.length / 8 ≤ s.cfg.maxWords := by omega
  have hdecoded := hst.after_write (Store.ofImage s.cmd.input) 0
  exact ⟨_, _, exec_decode_of_fits hst hfits, exec_encode (st := Store.ofImage s.cmd.input) hdecoded,
    imageOf_ofImage s.cmd.input⟩

/-- Settles O27: slot d holds after the DECODE the store that slot a held before the ENCODE, so GETBIT reads the same
bit. -/
theorem bitViewSurvivesRoundTrip : Obligations.BitViewSurvivesRoundTrip := by
  intro s t u a d c g hok ha hd hencode himage hdecode hlt
  obtain ⟨st, t', hst, hencode', hround⟩ := exists_holds_of_encode_decode hok ha hd c
  obtain rfl := Host.Outcome.next.inj (hencode.symm.trans hencode')
  obtain ⟨u', hdecode', hud, -⟩ := hround himage
  obtain rfl := Host.Outcome.next.inj (hdecode.symm.trans hdecode')
  have hsize : s.wcAt a.toNat * 64 = st.size := by simp only [State.wcAt, hst.2, Store.size]
  have hbit : g.a.toNat < st.size := hsize ▸ hlt
  exact ⟨_, _, exec_getbit_of_lt (s := s.latch g) hst hbit, exec_getbit_of_lt (s := u.latch g) hud hbit,
    rfl, rfl, rfl⟩

end Sys2Proof.Machine

namespace Sys2Proof.Machine

/-! ## What MUX does to a digest (42_index_mux.md R161) -/

theorem exec_mux_of_long {s : State} (h : s.cfg.muxMaxBytes < s.cmd.input.length) :
    exec .mux s = .next (s.failed 6) :=
  (if_pos h).trans (fail_eq s .digestTooLong (by decide))

theorem exec_mux_of_fits {s : State} (h : s.cmd.input.length ≤ s.cfg.muxMaxBytes) : exec .mux s =
    .next (s.succeeded s.stores (seedCount (s.cmd.input.length / 8)) [] (parseWords s.cmd.input)) :=
  (if_neg h.not_gt).trans (congrArg _ (endCommand_ok s _ _ _))

/-- A number of seeds that fits R is what R holds. -/
theorem seedCount_toNat {m : Nat} (h : m < 2 ^ 64) : (seedCount m).toNat = m := by
  rw [seedCount, if_pos h, toPort_toNat h]

/-! ## What the index commands do to a slot they reach (42_index_mux.md R166, R172, R175) -/

section
variable {s : State} {sd : Slot} {st : Store}

theorem exec_index (h : s.holds sd st) (hpos : 0 < st.size) :
    exec (.index sd) s = .next (s.succeeded s.stores (toPort (s.cmd.a.toNat % st.size)) [] []) :=
  ((withStore_of_holds h _).trans (withIndex_of_pos hpos _)).trans (finish_eq s _)

theorem exec_sethash (h : s.holds sd st) (hpos : 0 < st.size) : exec (.sethash sd) s =
    .next (s.succeeded (s.stores.set sd.toNat (st.orBit (s.cmd.a.toNat % st.size)))
      (toPort (s.cmd.a.toNat % st.size)) [] []) :=
  ((withStore_of_holds h _).trans (withIndex_of_pos hpos _)).trans (setStore_finish_eq s sd _ _)

theorem exec_gethash (h : s.holds sd st) (hpos : 0 < st.size) : exec (.gethash sd) s =
    .next (s.succeeded s.stores (if st.bit (s.cmd.a.toNat % st.size) then 1 else 0) [] []) := by
  rw [← finish_eq, ← st.bitWord_eq]
  exact (withStore_of_holds h _).trans (withIndex_of_pos hpos _)

/-- In a state whose stores are as the spec allows them, the divisor of a seed is not 0 (10_state.md R23). -/
theorem size_pos_of_holds (hok : s.storesOk) (hst : s.holds sd st) : 0 < st.size :=
  Nat.mul_pos (legal_of_holds hok hst).1 (by decide)

end

/-- A remainder of a word is at most that word, so it fits R whatever the divisor. -/
theorem toPort_mod_toNat (a : Word) (n : Nat) : (toPort (a.toNat % n)).toNat = a.toNat % n :=
  toPort_toNat ((Nat.mod_le _ _).trans_lt a.isLt)

/-! ## MUX -/

/-- Settles O28: MUX in and beyond its bound, with the seeds that `parseWords_byte` gives; a digest below 2^67 bytes has
fewer than 2^64 windows, so their number fits R. -/
theorem muxSplitsDigestIntoSeeds : Obligations.MuxSplitsDigestIntoSeeds := by
  intro s
  have hlen := parseWords_length s.cmd.input
  refine ⟨decode_wordOf 0x0A rfl rfl, exec_mux_of_long, fun hfits =>
    ⟨_, _, exec_mux_of_fits hfits, fun hshort => ?_, hlen,
      fun _ hk _ hj => parseWords_byte s.cmd.input (hk.trans_eq hlen) hj⟩⟩
  rw [hlen]
  exact seedCount_toNat (by omega)

/-- Settles O29: the number of seeds is the length of the digest divided by 8. -/
theorem digestGivesOneToEightSeeds : Obligations.DigestGivesOneToEightSeeds := by
  intro s hmax hlo hhi
  refine ⟨_, exec_mux_of_fits (hhi.trans_eq hmax.symm), ?_⟩
  simp only [State.succeeded, parseWords_length]
  omega

/-- Settles O30: whether MUX fails, and the response it gives in either case, are functions of the digest and the
build. -/
theorem muxDependsOnDigestAlone : Obligations.MuxDependsOnDigestAlone := by
  intro s s' hcfg hinput
  rcases Nat.lt_or_ge s.cfg.muxMaxBytes s.cmd.input.length with hlong | hfits
  · exact ⟨_, _, exec_mux_of_long hlong, exec_mux_of_long (hcfg ▸ hinput ▸ hlong), rfl⟩
  · refine ⟨_, _, exec_mux_of_fits hfits, exec_mux_of_fits (hcfg ▸ hinput ▸ hfits), ?_⟩
    simp only [State.succeeded, hinput]

/-! ## INDEX, SETHASH, GETHASH -/

/-- Settles O31: INDEX on a slot it reaches answers the remainder, which is below the size. -/
theorem indexIsSeedModSize : Obligations.IndexIsSeedModSize := by
  intro s sd st hok hst
  have hpos := size_pos_of_holds hok hst
  have hr : (toPort (s.cmd.a.toNat % st.size)).toNat = s.cmd.a.toNat % st.size := toPort_mod_toNat _ _
  exact ⟨decode_wordOf 0x0B rfl rfl, _, hr, hr.trans_lt (Nat.mod_lt _ hpos), exec_index hst hpos⟩

/-- Settles O32: SETHASH on a slot it reaches sets the bit of the remainder, which is an index below the size. -/
theorem sethashOrsTheSelectedBit : Obligations.SethashOrsTheSelectedBit := by
  intro s sd st idx hok hst hidx
  subst hidx
  have hpos := size_pos_of_holds hok hst
  exact ⟨decode_wordOf 0x0C rfl rfl, wordIndex_lt_wc.mpr (Nat.mod_lt _ hpos), _, toPort_mod_toNat _ _,
    exec_sethash hst hpos⟩

/-- Settles O33: the derived index is in range, so SETBIT of it writes the store that SETHASH writes. -/
theorem sethashIsSetbitOfDerivedIndex : Obligations.SethashIsSetbitOfDerivedIndex := by
  intro s sd st c hok hst hc
  have hpos := size_pos_of_holds hok hst
  have hlt : c.a.toNat < st.size := hc.trans_lt (Nat.mod_lt _ hpos)
  refine ⟨_, _, exec_sethash hst hpos, exec_setbit_of_lt (s := s.latch c) hst hlt, ?_⟩
  simp only [State.succeeded, State.latch_stores, State.latch_cmd, hc, Store.size]

/-- Settles O34: GETHASH on a slot it reaches reads the bit of the remainder. -/
theorem gethashReturnsTheSelectedBit : Obligations.GethashReturnsTheSelectedBit := fun _ _ _ hok hst =>
  ⟨decode_wordOf 0x0D rfl rfl, exec_gethash hst (size_pos_of_holds hok hst)⟩

end Sys2Proof.Machine

namespace Sys2Proof.Machine

/-! ## A command that ends with an error (60_exceptions.md R201, R202) -/

theorem ErrCode.code_toNat_le (e : ErrCode) : e.code.toNat ≤ 6 := by
  cases e <;> decide

@[simp] theorem State.failed_code_err (s : State) (e : ErrCode) : (s.failed e.code.toNat).resp.err = e.code := by
  simp [State.failed]

/-- A performed command ends without error, or it is the failure with one of the error codes: by its word's rejection or
by the rule of its command. -/
theorem perform_err_cases {s t : State} {c : Command} (h : s.perform c = .next t) :
    t.resp.err = 0 ∨ ∃ e : ErrCode, t = (s.latch c).failed e.code.toNat := by
  rcases perform_cases h with ⟨e, -, rejected⟩ | ⟨i, -, ran⟩
  · exact .inr ⟨rejectError e, rejected⟩
  · rcases exec_cases ran with ⟨e, -, failed⟩ | ⟨r, outb, outs, rfl⟩ | ⟨d, st, st', r, -, -, -, rfl⟩
    · exact .inr ⟨e, failed⟩
    · exact .inl rfl
    · exact .inl rfl

/-- Settles O7: the error-free end is excluded, and ERR of a failure with a code is that code, at most 6. -/
theorem errorHasOnlyItsRecordedEffect : Obligations.ErrorHasOnlyItsRecordedEffect := by
  intro s t c h herr
  rcases perform_err_cases h with hok | ⟨e, rfl⟩
  · exact absurd hok herr
  · rw [State.failed_code_err]
    exact ⟨rfl, e.code_toNat_le⟩

end Sys2Proof.Machine

namespace Sys2Proof

/-! ## Encoding and decoding are inverse (30_encoding.md R60 to R64) -/

/-- Settles O1: each command's word is laid out from an opcode whose entry is that command, with the unused slot fields
at 0. -/
theorem decodeOfEncode : Obligations.DecodeOfEncode := by
  intro i
  cases i with
  | new sd => exact decode_layout rfl rfl
  | size sd => exact decode_layout rfl rfl
  | setbit sd => exact decode_layout rfl rfl
  | getbit sd => exact decode_layout rfl rfl
  | count sd => exact decode_layout rfl rfl
  | equals sd ss => exact decode_layout rfl rfl
  | copy sd ss => exact decode_layout rfl rfl
  | encode sd => exact decode_layout rfl rfl
  | decode sd => exact decode_layout rfl rfl
  | mux => exact decode_layout rfl rfl
  | index sd => exact decode_layout rfl rfl
  | sethash sd => exact decode_layout rfl rfl
  | gethash sd => exact decode_layout rfl rfl

/-- The command of an opcode's entry is encoded with that opcode, where the slot fields that the format leaves unused
are 0. -/
theorem encode_of_opcodeMap_some {op : BitVec 8} {sd ss : Slot} {f : Format} {i : Instr}
    (h : opcodeMap op sd ss = some (f, i)) (unused : f.unusedZero sd ss = true) : encode i = layout op sd ss := by
  have hop : op = BitVec.ofNat 8 op.toNat := by simp
  unfold opcodeMap at h
  split at h
  case h_14 => cases h
  all_goals
    rename_i hnat
    rw [hnat] at hop
    cases h
    simp only [Format.unusedZero, Bool.and_eq_true, beq_iff_eq] at unused
    simp only [encode, hop, unused]
    rfl

/-- A word that decodes to a command has that command's entry, RSV = 0, and 0 in the slot fields its format leaves
unused (30_encoding.md R64). -/
theorem fields_of_decode_ok {cw : CmdWord} {i : Instr} (h : decode cw = .ok i) :
    ∃ f, opcodeMap (cwOp cw) (cwSd cw) (cwSs cw) = some (f, i) ∧ cwRsv cw = 0 ∧
      f.unusedZero (cwSd cw) (cwSs cw) = true := by
  cases hmap : opcodeMap (cwOp cw) (cwSd cw) (cwSs cw) with
  | none => simp [decode_of_opcodeMap_none hmap] at h
  | some entry =>
    obtain ⟨f, j⟩ := entry
    rw [decode_of_opcodeMap_some hmap] at h
    split at h
    case isTrue htest =>
      obtain rfl := Except.ok.inj h
      exact ⟨f, rfl, (f.mask_test_iff cw).mp htest⟩
    case isFalse => cases h

/-- Settles O2: the command's word and the word that was decoded are laid out from the same fields. -/
theorem encodeOfDecode : Obligations.EncodeOfDecode := by
  intro cw i h
  obtain ⟨f, hmap, hrsv, hunused⟩ := fields_of_decode_ok h
  rw [encode_of_opcodeMap_some hmap hunused, layout, ← hrsv]
  exact append_fields cw

/-- Settles O4: each of the six words is the encoded word of its command. -/
theorem exampleWordsDecode : Obligations.ExampleWordsDecode :=
  ⟨decodeOfEncode (.setbit 1), decodeOfEncode (.equals 0 1), decodeOfEncode (.copy 1 0), decodeOfEncode (.decode 1),
    decodeOfEncode .mux, decodeOfEncode (.index 0)⟩

end Sys2Proof

namespace Sys2Proof.Machine

/-! ## How a command ends (30_encoding.md R64, 60_exceptions.md R202) -/

theorem perform_of_decode_error {s : State} {c : Command} {e : Reject} (h : decode c.cw = .error e) :
    s.perform c = .next ((s.latch c).failed (rejectError e).code.toNat) := by
  rw [State.perform, h]
  exact fail_eq _ _ (by cases e <;> decide)

theorem perform_of_decode_ok {s : State} {c : Command} {i : Instr} (h : decode c.cw = .ok i) :
    s.perform c = exec i (s.latch c) := by
  rw [State.perform, h]

/-- Settles O5: the two rejections have the codes 1 and 2. -/
theorem rejectedWordReportsItsError : Obligations.RejectedWordReportsItsError := fun _ _ =>
  ⟨perform_of_decode_error, perform_of_decode_error⟩

theorem ErrCode.code_ne_zero {e : ErrCode} (he : e ≠ .ok) : e.code ≠ 0 := by
  cases e with
  | ok => exact absurd rfl he
  | illegalOpcode | reservedField | badStore | capacity | getOutOfRange | digestTooLong => decide

/-- A performed command that completes failed with one of the six codes, or succeeded. -/
theorem perform_ends {s t : State} {c : Command} (h : s.perform c = .next t) :
    (∃ e : ErrCode, e ≠ .ok ∧ t = (s.latch c).failed e.code.toNat) ∨
    ∃ stores r outb outs, t = (s.latch c).succeeded stores r outb outs := by
  rcases perform_cases h with ⟨e, -, rejected⟩ | ⟨i, -, ran⟩
  · exact .inl ⟨rejectError e, by cases e <;> decide, rejected⟩
  · rcases exec_cases ran with failed | ⟨r, outb, outs, rfl⟩ | ⟨d, st, st', r, -, -, -, rfl⟩
    · exact .inl failed
    · exact .inr ⟨_, r, outb, outs, rfl⟩
    · exact .inr ⟨_, r, [], [], rfl⟩

/-- Settles O8: ERR is 0 for a success alone, and STATUS at each end is the one R30 gives. -/
theorem everyCommandUpdatesStatus : Obligations.EveryCommandUpdatesStatus := by
  intro s t c h
  rcases perform_ends h with ⟨e, he, rfl⟩ | ⟨stores, r, outb, outs, rfl⟩
  · rw [State.failed_code_err, if_neg (ErrCode.code_ne_zero he)]
    rfl
  · exact (if_pos rfl).symm

/-- Settles O35: each of the three ends of a command sets these three fields at most. -/
theorem commandsChangeNothingElse : Obligations.CommandsChangeNothingElse := by
  intro i s t h
  rcases exec_cases h with ⟨e, -, rfl⟩ | ⟨r, outb, outs, rfl⟩ | ⟨d, st, st', r, -, -, -, rfl⟩
  · rfl
  · rfl
  · rfl

/-- Performing a command changes the command record, the stores, STATUS and the response record, and nothing else. -/
theorem perform_frame {s t : State} {c : Command} (h : s.perform c = .next t) :
    t = { s with cmd := c, stores := t.stores, status := t.status, resp := t.resp } := by
  rcases perform_ends h with ⟨e, -, rfl⟩ | ⟨stores, r, outb, outs, rfl⟩
  · rfl
  · rfl

section
variable {s t : State} {c : Command} (h : s.perform c = .next t)
include h

theorem perform_cfg : t.cfg = s.cfg := (congrArg State.cfg (perform_frame h) :)
theorem perform_outstanding : t.outstanding = s.outstanding := (congrArg State.outstanding (perform_frame h) :)
theorem perform_responses : t.responses = s.responses := (congrArg State.responses (perform_frame h) :)
theorem perform_delivered : t.delivered = s.delivered := (congrArg State.delivered (perform_frame h) :)
theorem perform_inputs : t.inputs = s.inputs := (congrArg State.inputs (perform_frame h) :)

end

/-! ## A slot that the build does not have (30_encoding.md R61, R64) -/

theorem withStore_eq_failed {s : State} {slot : Slot} (h : s.cfg.slotLegal slot = false) (k : Store → StepResult) :
    s.withStore slot k = .next (s.failed 3) :=
  (withStore_of_illegal h k).trans (fail_eq s .badStore (by decide))

theorem withStore_of_not_wf_one {s : State} {i : Instr} {sd : Slot} (slots : i.slots = [sd])
    (h : i.wf s.cfg = false) (k : Store → StepResult) : s.withStore sd k = .next (s.failed 3) :=
  withStore_eq_failed (by simpa [Instr.wf, slots] using h) k

/-- Of two slots, SD is checked first; where it is legal it is there, and SS is the illegal one. -/
theorem withStore_of_not_wf_two {s : State} {i : Instr} {sd ss : Slot} (hok : s.storesOk) (slots : i.slots = [sd, ss])
    (h : i.wf s.cfg = false) (k : Store → Store → StepResult) :
    (s.withStore sd fun x => s.withStore ss (k x)) = .next (s.failed 3) := by
  cases hsd : s.cfg.slotLegal sd with
  | false => exact withStore_eq_failed hsd _
  | true =>
    obtain ⟨x, hx, -⟩ := hok.reach hsd
    have hss : s.cfg.slotLegal ss = false := by simpa [Instr.wf, slots, hsd] using h
    exact (withStore_of_holds hx _).trans (withStore_eq_failed hss _)

/-- Settles O6: each command reaches its slots, SD first, before it does anything else, and MUX names none. -/
theorem illegalSlotReportsBadStore : Obligations.IllegalSlotReportsBadStore := by
  intro i s hok h
  cases i with
  | new sd => exact withStore_of_not_wf_one rfl h _
  | size sd => exact withStore_of_not_wf_one rfl h _
  | setbit sd => exact withStore_of_not_wf_one rfl h _
  | getbit sd => exact withStore_of_not_wf_one rfl h _
  | count sd => exact withStore_of_not_wf_one rfl h _
  | equals sd ss => exact withStore_of_not_wf_two hok rfl h _
  | copy sd ss => exact withStore_of_not_wf_two hok rfl h _
  | encode sd => exact withStore_of_not_wf_one rfl h _
  | decode sd => exact withStore_of_not_wf_one rfl h _
  | mux => exact absurd h (by simp [Instr.wf, Instr.slots])
  | index sd => exact withStore_of_not_wf_one rfl h _
  | sethash sd => exact withStore_of_not_wf_one rfl h _
  | gethash sd => exact withStore_of_not_wf_one rfl h _

/-! ## What a command does to one slot (10_state.md R26, 40_bitstore.md R103) -/

/-- A command leaves slot number k as it is, or k is the slot it writes and holds the changed store. -/
theorem exec_slot_cases {i : Instr} {s t : State} (h : exec i s = .next t) (k : Nat) :
    t.stores[k]? = s.stores[k]? ∨
    ∃ d st st', i.writes = some d ∧ d.toNat = k ∧ s.holds d st ∧ StoreChange i s d st st' ∧ t.holds d st' := by
  rcases exec_cases h with ⟨e, -, rfl⟩ | ⟨r, outb, outs, rfl⟩ | ⟨d, st, st', r, hd, hst, hchange, rfl⟩
  · exact .inl rfl
  · exact .inl rfl
  · by_cases hk : d.toNat = k
    · exact .inr ⟨d, st, st', hd, hk, hst, hchange, hst.after_write st' r⟩
    · exact .inl (List.getElem?_set_ne hk)

theorem exec_stores_length {i : Instr} {s t : State} (h : exec i s = .next t) :
    t.stores.length = s.stores.length := by
  rcases exec_cases h with ⟨e, -, rfl⟩ | ⟨r, outb, outs, rfl⟩ | ⟨d, st, st', r, -, -, -, rfl⟩
  · rfl
  · rfl
  · exact List.length_set

/-- Settles O36: a command that writes another slot than number k leaves k as it is. -/
theorem commandsWriteOnlyTheirSlot : Obligations.CommandsWriteOnlyTheirSlot := by
  intro i s t h
  refine ⟨exec_stores_length h, fun k hk => ?_⟩
  rcases exec_slot_cases h k with same | ⟨d, -, -, hd, hdk, -⟩
  · exact same
  · exact absurd hdk.symm (hk d hd)

/-- A change that does not rebuild the store keeps its word count and every set bit. -/
theorem StoreChange.keeps {i : Instr} {s : State} {d : Slot} {st st' : Store} (change : StoreChange i s d st st')
    (h : i.rebuilds ≠ some d) : st'.wc = st.wc ∧ ∀ j, st.bit j = true → st'.bit j = true := by
  cases change with
  | rebuilt _ by_rule _ => exact absurd by_rule h
  | bitSet idx in_range => exact ⟨st.orBit_wc idx, fun j hj => by simp [st.bit_orBit in_range, hj]⟩

theorem State.holds.wcAt_eq {s : State} {slot : Slot} {st : Store} (h : s.holds slot st) :
    s.wcAt slot.toNat = st.wc := by
  simp only [State.wcAt, h.2]

/-- Settles O37: the slot is as before, or it is written without a rebuild. -/
theorem onlyConstructionChangesWordCount : Obligations.OnlyConstructionChangesWordCount := by
  intro i s t h k hk
  rcases exec_slot_cases h k with same | ⟨d, st, st', -, rfl, hst, hchange, hst'⟩
  · simp only [State.wcAt, same]
  · rw [hst'.wcAt_eq, hst.wcAt_eq]
    exact (hchange.keeps fun hr => hk d hr rfl).1

/-! ## COPY (40_bitstore.md R119) -/

theorem exec_copy {s : State} {sd ss : Slot} {x y : Store} (hx : s.holds sd x) (hy : s.holds ss y) :
    exec (.copy sd ss) s = .next (s.succeeded (s.stores.set sd.toNat y) 0 [] []) :=
  ((withStore_of_holds hx _).trans (withStore_of_holds hy _)).trans (setStore_finish_eq s sd y 0)

theorem State.holds.set_self {s : State} {slot : Slot} {st : Store} (h : s.holds slot st) :
    s.stores.set slot.toNat st = s.stores := by
  obtain ⟨hlt, rfl⟩ := List.getElem?_eq_some_iff.mp h.2
  exact List.set_getElem_self hlt

/-- Settles O20: after COPY both slots hold the source's store, so EQUALS compares its words with themselves. -/
theorem copyTakesWordCountAndWords : Obligations.CopyTakesWordCountAndWords := by
  intro s sd ss x y hx hy
  refine ⟨decode_wordOf 0x07 rfl rfl, _, exec_copy hx hy, rfl, fun hself => ?_, fun c => ?_⟩
  · subst hself
    exact hy.set_self
  · have hsd : (s.succeeded (s.stores.set sd.toNat y) 0 [] []).holds sd y := hx.after_write y 0
    have hss := hy.after_write_of_same hx 0
    refine ⟨_, exec_equals (s := State.latch _ c) hsd hss, ?_⟩
    simp [State.succeeded, boolWord]

end Sys2Proof.Machine

namespace Sys2Proof.Machine

/-! ## The bits of STATUS (10_state.md R30) -/

theorem statusImplemented_getLsbD (b : Nat) : statusImplemented.getLsbD b = decide (b < 14) := by
  have : statusImplemented = (BitVec.allOnes 14).setWidth 32 := by decide
  rw [this, BitVec.getLsbD_setWidth, BitVec.getLsbD_allOnes]
  by_cases hb : b < 14
  · simp [hb, show b < 32 by omega]
  · simp [hb]

theorem State.readStatus_getLsbD (s : State) (b : Nat) :
    s.readStatus.getLsbD b = (s.status.getLsbD b && decide (b < 14)) := by
  rw [State.readStatus, BitVec.getLsbD_and, statusImplemented_getLsbD]

/-- Settles O10: the mask of a read is 1 below bit 14 and 0 from there up. -/
theorem statusReservedBitsReadZero : Obligations.StatusReservedBitsReadZero := by
  refine fun s => ⟨BitVec.eq_of_getLsbD_eq fun b _ => ?_, fun b hb => ?_⟩
  · rw [BitVec.getLsbD_ushiftRight, s.readStatus_getLsbD]
    simp
  · simp [s.readStatus_getLsbD, hb]

/-- The end of a command without error keeps every bit but those of LAST_ERR. -/
theorem statusOkEnd_getLsbD {st : BitVec 32} {b : Nat} (hb : 8 ≤ b) : (statusOkEnd st).getLsbD b = st.getLsbD b := by
  have mask : (0xFFFFFF00 : BitVec 32) = BitVec.allOnes 24 ++ (0 : BitVec 8) := by decide
  rcases Nat.lt_or_ge b 32 with h32 | h32
  · rw [statusOkEnd, BitVec.getLsbD_and, mask, BitVec.getLsbD_append, BitVec.getLsbD_allOnes]
    simp [hb.not_gt, show b - 8 < 24 by omega]
  · rw [BitVec.getLsbD_of_ge _ b h32, BitVec.getLsbD_of_ge _ b h32]

theorem statusErrEnd_eq (st : BitVec 32) (e : Nat) :
    statusErrEnd st e = statusOkEnd st ||| BitVec.ofNat 32 e ||| ((1 : BitVec 32) <<< (7 + e)) := rfl

/-- The end of a command, with an error or without, clears no sticky bit. -/
theorem perform_keeps_sticky {s t : State} {c : Command} (h : s.perform c = .next t) {b : Nat} (hb : 8 ≤ b)
    (wasSet : s.status.getLsbD b = true) : t.status.getLsbD b = true := by
  rcases perform_ends h with ⟨e, -, rfl⟩ | ⟨stores, r, outb, outs, rfl⟩
  · change (statusErrEnd s.status _).getLsbD b = true
    simp only [statusErrEnd_eq, BitVec.getLsbD_or, statusOkEnd_getLsbD hb, wasSet, Bool.true_or]
  · exact (statusOkEnd_getLsbD hb).trans wasSet

/-! ## Events from outside (10_state.md R20, R32; 70_reset_and_hazards.md R230) -/

/-- A host that may accept takes the first response that waits for it. -/
theorem acceptResponse_of_ready {s : State} {h : Nat} (ready : s.inputReady (.accept h) = true) :
    ∃ p ∈ s.responses, p.host = h ∧ s.responses.find? (fun p => p.host == h) = some p ∧
      s.acceptResponse h =
        { s with responses := s.responses.erase p, delivered := s.delivered ++ [.response h p.resp] } := by
  obtain ⟨p, hfind⟩ : ∃ p, s.responses.find? (fun p => p.host == h) = some p :=
    Option.isSome_iff_exists.mp (by simpa [State.inputReady] using ready)
  exact ⟨p, List.mem_of_find?_eq_some hfind, by simpa using List.find?_some hfind, hfind,
    by rw [State.acceptResponse, hfind]⟩

/-- An event that is no reset changes the outstanding commands, the pending responses and the deliveries, and nothing
else. -/
theorem applyInput_frame (s : State) {e : Input} (he : e ≠ .reset) :
    s.applyInput e = { s with
      outstanding := (s.applyInput e).outstanding, responses := (s.applyInput e).responses,
      delivered := (s.applyInput e).delivered } := by
  cases e with
  | issue h c => rfl
  | accept h =>
    change s.acceptResponse h = { s with
      outstanding := (s.acceptResponse h).outstanding, responses := (s.acceptResponse h).responses,
      delivered := (s.acceptResponse h).delivered }
    unfold State.acceptResponse
    split
    · rfl
    · rfl
  | readStatus h => rfl
  | reset => exact absurd rfl he

/-- Settles O9: performing a command clears no sticky bit, and no event but a reset writes STATUS. -/
theorem onlyResetClearsStickyBits : Obligations.OnlyResetClearsStickyBits := by
  intro s t h hreset b hb wasSet
  rcases step_cases h with ⟨-, rfl⟩ | ⟨q, u, -, -, performed, rfl⟩ | ⟨e, hmove, -, -, rfl⟩
  · exact wasSet
  · exact perform_keeps_sticky performed hb wasSet
  · have he : e ≠ .reset := fun reset => hreset (reset ▸ hmove)
    rw [applyInput_frame _ he]
    exact wasSet

/-! ## Every step keeps the invariant (10_state.md R21 to R23, R30, R32) -/

theorem StoreChange.legal {i : Instr} {s : State} {d : Slot} {st st' : Store} (change : StoreChange i s d st st')
    (hok : s.storesOk) (hst : s.holds d st) : st'.legal s.cfg.maxWords := by
  cases change with
  | rebuilt _ _ legal => exact legal hok
  | bitSet idx _ =>
    rw [Store.legal, st.orBit_wc]
    exact legal_of_holds hok hst

theorem storesOk_of_exec {i : Instr} {s t : State} (hok : s.storesOk) (h : exec i s = .next t) : t.storesOk := by
  rcases exec_cases h with ⟨e, -, rfl⟩ | ⟨r, outb, outs, rfl⟩ | ⟨d, st, st', r, -, hst, hchange, rfl⟩
  · exact hok
  · exact hok
  · obtain ⟨hcfg, hlen, hlegal⟩ := hok
    refine ⟨hcfg, List.length_set.trans hlen, fun x hx => ?_⟩
    rcases List.mem_or_eq_of_mem_set hx with old | rfl
    · exact hlegal x old
    · exact hchange.legal ⟨hcfg, hlen, hlegal⟩ hst

theorem storesOk_of_perform {s t : State} {c : Command} (hok : s.storesOk) (h : s.perform c = .next t) :
    t.storesOk := by
  rcases perform_cases h with ⟨e, -, rfl⟩ | ⟨i, -, ran⟩
  · exact hok
  · exact storesOk_of_exec (s := s.latch c) hok ran

theorem resetWith_storesOk {c : Config} (h : c.legal) : (State.resetWith c).storesOk := by
  refine ⟨h, List.length_replicate, fun st hst => ?_⟩
  obtain rfl := List.eq_of_mem_replicate hst
  obtain ⟨-, -, hmax, -⟩ := h
  exact ⟨le_rfl, hmax⟩

theorem storesOk_of_openStep {s t : State} {m : Option Move} (hok : s.storesOk) (h : OpenStep s m t) :
    t.storesOk := by
  rcases openStep_cases h with ⟨-, events, rfl⟩ | ⟨q, u, -, -, performed, rfl⟩ | ⟨e, -, -, -, rfl⟩
  · exact hok
  · exact (storesOk_of_perform (s := s.countChoice.dropRequest q) hok performed :)
  · by_cases he : e = .reset
    · subst he
      exact resetWith_storesOk hok.1
    · rw [applyInput_frame _ he]
      exact hok

theorem lastErr_or (x y : BitVec 32) : lastErr (x ||| y) = lastErr x ||| lastErr y := BitVec.extractLsb'_or

theorem lastErr_statusOkEnd (st : BitVec 32) : lastErr (statusOkEnd st) = 0 :=
  BitVec.extractLsb'_and.trans BitVec.and_zero

theorem statusOkEnd_reserved {st : BitVec 32} (h : st >>> 14 = 0) : statusOkEnd st >>> 14 = 0 := by
  rw [statusOkEnd, BitVec.ushiftRight_and_distrib, h]
  exact BitVec.zero_and

/-- After an error LAST_ERR is its code, and the code and its sticky bit lie below bit 14. -/
theorem statusErrEnd_ok {st : BitVec 32} (h : st >>> 14 = 0) {e : ErrCode} (he : e ≠ .ok) :
    statusErrEnd st e.code.toNat >>> 14 = 0 ∧ lastErr (statusErrEnd st e.code.toNat) = e.code ∧
      (statusErrEnd st e.code.toNat).getLsbD (7 + e.code.toNat) = true := by
  have code : BitVec.ofNat 32 e.code.toNat >>> 14 = 0 ∧ lastErr (BitVec.ofNat 32 e.code.toNat) = e.code := by
    cases e <;> decide
  have sticky : ((1 : BitVec 32) <<< (7 + e.code.toNat)) >>> 14 = 0 ∧
      lastErr ((1 : BitVec 32) <<< (7 + e.code.toNat)) = 0 ∧
      ((1 : BitVec 32) <<< (7 + e.code.toNat)).getLsbD (7 + e.code.toNat) = true := by
    cases e with
    | ok => exact absurd rfl he
    | illegalOpcode | reservedField | badStore | capacity | getOutOfRange | digestTooLong => decide
  obtain ⟨codeLow, codeErr⟩ := code
  obtain ⟨stickyLow, stickyErr, stickySet⟩ := sticky
  rw [statusErrEnd_eq, BitVec.ushiftRight_or_distrib, BitVec.ushiftRight_or_distrib, statusOkEnd_reserved h, codeLow,
    stickyLow, lastErr_or, lastErr_or, lastErr_statusOkEnd, codeErr, stickyErr, BitVec.getLsbD_or, stickySet]
  simp

theorem statusOk_of_perform {s t : State} {c : Command} (hok : s.statusOk) (h : s.perform c = .next t) :
    t.statusOk := by
  obtain ⟨reserved, -, -⟩ := hok
  rcases perform_ends h with ⟨e, he, rfl⟩ | ⟨stores, r, outb, outs, rfl⟩
  · obtain ⟨low, last, sticky⟩ := statusErrEnd_ok reserved he
    change statusErrEnd s.status _ >>> 14 = 0 ∧ (lastErr (statusErrEnd s.status _)).toNat ≤ 6 ∧
      (lastErr (statusErrEnd s.status _) ≠ 0 → (statusErrEnd s.status _).getLsbD
        (7 + (lastErr (statusErrEnd s.status _)).toNat) = true)
    rw [last]
    exact ⟨low, e.code_toNat_le, fun _ => sticky⟩
  · have last : lastErr (statusOkEnd s.status) = 0 := lastErr_statusOkEnd s.status
    exact ⟨statusOkEnd_reserved reserved, by simp [State.succeeded, last], fun err => absurd last err⟩

theorem resetWith_statusOk (c : Config) : (State.resetWith c).statusOk := by
  rw [State.statusOk, State.resetWith_status]
  decide

theorem statusOk_of_openStep {s t : State} {m : Option Move} (hok : s.statusOk) (h : OpenStep s m t) :
    t.statusOk := by
  rcases openStep_cases h with ⟨-, events, rfl⟩ | ⟨q, u, -, -, performed, rfl⟩ | ⟨e, -, -, -, rfl⟩
  · exact hok
  · exact (statusOk_of_perform (s := s.countChoice.dropRequest q) hok performed :)
  · by_cases he : e = .reset
    · subst he
      exact resetWith_statusOk s.cfg
    · rw [applyInput_frame _ he]
      exact hok

/-- The host of a performed command was busy with the command and is now busy with its response. -/
theorem busyHosts_perm_of_perform {s u : State} {q : Request} (hq : q ∈ s.outstanding)
    (h : (s.countChoice.dropRequest q).perform q.cmd = .next u) : (u.respondTo q.host).busyHosts.Perm s.busyHosts := by
  have out : u.outstanding = s.outstanding.erase q := (perform_outstanding h :)
  have resp : u.responses = s.responses := (perform_responses h :)
  have hperm : (s.outstanding.map Request.host).Perm (q.host :: (s.outstanding.erase q).map Request.host) :=
    (List.perm_cons_erase hq).map Request.host
  simp only [State.busyHosts, State.respondTo_outstanding, State.respondTo_responses, out, resp, List.map_append,
    List.map_cons, List.map_nil, ← List.append_assoc]
  exact (List.perm_append_singleton _ _).trans (hperm.symm.append_right _)

theorem hostFree_iff {s : State} {h : Nat} :
    s.hostFree h = true ↔ (∀ q ∈ s.outstanding, q.host ≠ h) ∧ ∀ p ∈ s.responses, p.host ≠ h := by
  simp [State.hostFree]

theorem hostsOk_of_applyInput {s : State} (hok : s.hostsOk) {e : Input} (ready : s.inputReady e = true) :
    (s.applyInput e).hostsOk := by
  cases e with
  | issue h c =>
    obtain ⟨noCommand, noResponse⟩ := hostFree_iff.mp ready
    have fresh : h ∉ s.busyHosts := by
      simpa [State.busyHosts] using And.intro noCommand noResponse
    have hperm : (s.applyInput (.issue h c)).busyHosts.Perm (h :: s.busyHosts) := by
      simp only [State.busyHosts, State.applyInput, List.map_append, List.map_cons, List.map_nil, List.append_assoc]
      exact List.perm_middle
    exact hperm.nodup_iff.mpr (List.nodup_cons.mpr ⟨fresh, hok⟩)
  | accept h =>
    obtain ⟨p, -, -, -, accepted⟩ := acceptResponse_of_ready ready
    change (s.acceptResponse h).busyHosts.Nodup
    rw [accepted]
    exact hok.sublist ((List.Sublist.refl _).append (List.erase_sublist.map _))
  | readStatus h => exact hok
  | reset => exact List.nodup_nil

theorem hostsOk_of_openStep {s t : State} {m : Option Move} (hok : s.hostsOk) (h : OpenStep s m t) :
    t.hostsOk := by
  rcases openStep_cases h with ⟨-, events, rfl⟩ | ⟨q, u, -, hq, performed, rfl⟩ | ⟨e, -, -, ready, rfl⟩
  · exact hok
  · exact (busyHosts_perm_of_perform hq performed).nodup_iff.mpr hok
  · exact hostsOk_of_applyInput (s := s.countChoice.popInput) hok ready

theorem inv_of_openStep {s t : State} {m : Option Move} (hinv : s.Inv) (h : OpenStep s m t) : t.Inv := by
  obtain ⟨stores, status, hosts⟩ := hinv
  exact ⟨storesOk_of_openStep stores h, statusOk_of_openStep status h, hostsOk_of_openStep hosts h⟩

/-- The step function makes one step of the step relation; where it waits, that is a pause. -/
theorem openStep_of_step {s t : State} (h : step s = .next t) : OpenStep s s.nextMove t := by
  unfold step at h
  split at h
  · rename_i hmove
    obtain rfl := Host.Outcome.next.inj h
    rw [hmove]
    exact ⟨[], s.offer_nil.symm⟩
  · rename_i m hmove
    rw [hmove]
    exact ⟨nextMove_mem hmove, h⟩

/-- Settles O47: a step is a step of the relation, each of which keeps the three parts of the invariant. -/
theorem everyStepKeepsTheInvariant : Obligations.EveryStepKeepsTheInvariant := fun _ _ hinv h =>
  inv_of_openStep hinv (openStep_of_step h)

theorem resetWith_inv {c : Config} (h : c.legal) : (State.resetWith c).Inv :=
  ⟨resetWith_storesOk h, resetWith_statusOk c, List.nodup_nil⟩

/-- Settles O46: the standard build is one of the legal builds. -/
theorem invariantHoldsAtReset : Obligations.InvariantHoldsAtReset :=
  ⟨fun _ => resetWith_inv, resetWith_inv (by decide)⟩

/-! ## No step stops (60_exceptions.md R200) -/

theorem withStore_completes {s : State} {slot : Slot} (hok : s.storesOk) {k : Store → StepResult}
    (hk : ∀ st, s.holds slot st → ∃ t, k st = .next t) : ∃ t, s.withStore slot k = .next t := by
  cases hlegal : s.cfg.slotLegal slot with
  | false => exact ⟨_, withStore_eq_failed hlegal k⟩
  | true =>
    obtain ⟨st, hst, -⟩ := hok.reach hlegal
    rw [withStore_of_holds hst]
    exact hk st hst

theorem ite_completes (p : Prop) [Decidable p] (a b : State) :
    ∃ t, (if p then .next a else .next b : StepResult) = .next t := by
  split
  · exact ⟨a, rfl⟩
  · exact ⟨b, rfl⟩

/-- In a state whose stores are legal every slot that a command reaches is there, and no store has size 0. -/
theorem exec_completes {s : State} (hok : s.storesOk) (i : Instr) : ∃ t, exec i s = .next t := by
  cases i with
  | new sd => exact withStore_completes hok fun _ _ => ite_completes _ _ _
  | size sd => exact withStore_completes hok fun _ _ => ⟨_, rfl⟩
  | setbit sd => exact withStore_completes hok fun _ _ => ite_completes _ _ _
  | getbit sd => exact withStore_completes hok fun _ _ => ite_completes _ _ _
  | count sd => exact withStore_completes hok fun _ _ => ⟨_, rfl⟩
  | equals sd ss => exact withStore_completes hok fun _ _ => withStore_completes hok fun _ _ => ⟨_, rfl⟩
  | copy sd ss => exact withStore_completes hok fun _ _ => withStore_completes hok fun _ _ => ⟨_, rfl⟩
  | encode sd => exact withStore_completes hok fun _ _ => ⟨_, rfl⟩
  | decode sd => exact withStore_completes hok fun _ _ => ite_completes _ _ _
  | mux =>
    rcases Nat.lt_or_ge s.cfg.muxMaxBytes s.cmd.input.length with hlong | hfits
    · exact ⟨_, exec_mux_of_long hlong⟩
    · exact ⟨_, exec_mux_of_fits hfits⟩
  | index sd => exact withStore_completes hok fun _ hst => ⟨_, withIndex_of_pos (size_pos_of_holds hok hst) _⟩
  | sethash sd => exact withStore_completes hok fun _ hst => ⟨_, withIndex_of_pos (size_pos_of_holds hok hst) _⟩
  | gethash sd => exact withStore_completes hok fun _ hst => ⟨_, withIndex_of_pos (size_pos_of_holds hok hst) _⟩

theorem perform_completes {s : State} (hok : s.storesOk) (c : Command) : ∃ t, s.perform c = .next t := by
  cases hdec : decode c.cw with
  | error e => exact ⟨_, perform_of_decode_error hdec⟩
  | ok i =>
    rw [perform_of_decode_ok hdec]
    exact exec_completes (s := s.latch c) hok i

theorem doMove_completes {s : State} (hok : s.storesOk) (m : Move) : ∃ t, s.doMove m = .next t := by
  cases m with
  | perform q =>
    obtain ⟨u, performed⟩ := perform_completes (s := s.countChoice.dropRequest q) hok q.cmd
    exact ⟨u.respondTo q.host, by rw [State.doMove, State.runRequest, performed]⟩
  | input e => exact ⟨_, rfl⟩

theorem step_of_nextMove {s : State} {m : Move} (h : s.nextMove = some m) : step s = s.doMove m := by
  rw [step, h]

theorem step_of_no_move {s : State} (h : s.nextMove = none) : step s = .next s := by
  rw [step, h]

/-- Settles O48: a step waits, or makes a move, which completes in a state whose stores are legal. -/
theorem noStepStops : Obligations.NoStepStops := by
  intro s hinv
  cases hmove : s.nextMove with
  | none => exact ⟨s, step_of_no_move hmove⟩
  | some m =>
    rw [step_of_nextMove hmove]
    exact doMove_completes hinv.1 m

/-- Settles O52: an outstanding command is an open move, which completes; the other two parts are `openStep_of_step` and
`inv_of_openStep`. -/
theorem anyOutstandingCommandMayBeNext : Obligations.AnyOutstandingCommandMayBeNext := by
  intro s hinv
  refine ⟨fun q hq => ?_, fun t => openStep_of_step, fun m t => inv_of_openStep hinv⟩
  obtain ⟨t, moved⟩ := doMove_completes hinv.1 (.perform q)
  exact ⟨t, mem_moves_perform.mpr hq, moved⟩

end Sys2Proof.Machine

namespace Sys2Proof.Machine

/-! ## Steps that perform a command (10_state.md R29, R32; 30_encoding.md R64) -/

theorem step_of_perform {s u : State} {q : Request} (hmove : s.nextMove = some (.perform q))
    (h : (s.countChoice.dropRequest q).perform q.cmd = .next u) : step s = .next (u.respondTo q.host) := by
  rw [step_of_nextMove hmove, State.doMove, State.runRequest, h]

/-- Settles O49: the step performs the request's command, which decodes to a command or is rejected. -/
theorem stepRunsTheDecodedCommand : Obligations.StepRunsTheDecodedCommand := by
  rintro s l q hmove rfl
  have rejected := rejectedWordReportsItsError (s.countChoice.dropRequest q) q.cmd
  refine ⟨fun i hdec => ?_, fun hdec => step_of_perform hmove (rejected.1 hdec),
    fun hdec => step_of_perform hmove (rejected.2 hdec)⟩
  rw [step_of_nextMove hmove, State.doMove, State.runRequest, perform_of_decode_ok hdec]
  cases exec i ((s.countChoice.dropRequest q).latch q.cmd) <;> rfl

/-- A step whose move performs a command answers the state that performing it left, with the response returned. -/
theorem step_perform_cases {s t : State} {q : Request} (hmove : s.nextMove = some (.perform q))
    (h : step s = .next t) :
    q ∈ s.outstanding ∧
      ∃ u, (s.countChoice.dropRequest q).perform q.cmd = .next u ∧ t = u.respondTo q.host := by
  rcases step_cases h with ⟨waits, -⟩ | ⟨q', u, hmove', hq, performed, rfl⟩ | ⟨e, hmove', -⟩
  · rw [hmove] at waits
    cases waits
  · rw [hmove] at hmove'
    cases hmove'
    exact ⟨hq, u, performed, rfl⟩
  · rw [hmove] at hmove'
    cases hmove'

/-- Settles O50: performing a command leaves the hosts' side alone, and its response is returned once. -/
theorem oneResponseToTheIssuingHost : Obligations.OneResponseToTheIssuingHost := by
  intro s t q hmove h
  obtain ⟨-, u, performed, rfl⟩ := step_perform_cases hmove h
  refine ⟨?_, (perform_outstanding performed :), (perform_delivered performed :)⟩
  rw [State.respondTo_responses, State.respondTo_resp, perform_responses performed]
  rfl

theorem moves_ne_nil {s : State} (h : s.outstanding ≠ []) : s.moves ≠ [] := by
  simp [State.moves, h]

/-- Settles O51: the move is one of the open ones, of which each outstanding command is one. -/
theorem arbiterTakesAnOutstandingCommand : Obligations.ArbiterTakesAnOutstandingCommand := by
  intro s
  refine ⟨fun q hmove => mem_moves_perform.mp (nextMove_mem hmove), fun hout => ?_, fun q hout hin => ?_⟩
  · rw [Ne, nextMove_eq_none]
    exact moves_ne_nil hout
  · have only : s.moves = [.perform q] := by simp [State.moves, State.inputMoves, hout, hin]
    rw [State.nextMove, only]

/-- Settles O57: nothing outstanding and nothing to come leave no open move. -/
theorem idleBlockWaits : Obligations.IdleBlockWaits := by
  intro s hout hin
  have idle : s.moves = [] := by simp [State.moves, State.inputMoves, hout, hin]
  exact step_of_no_move (nextMove_eq_none.mpr idle)

/-! ## Steps in which an event from outside happens (10_state.md R20, R30, R32; 70_reset_and_hazards.md R232) -/

theorem ready_of_nextMove {s : State} {e : Input} (h : s.nextMove = some (.input e)) : s.inputReady e = true :=
  (mem_moves_input.mp (nextMove_mem h)).2

theorem step_of_input {s : State} {e : Input} (h : s.nextMove = some (.input e)) :
    step s = .next (s.countChoice.popInput.applyInput e) :=
  step_of_nextMove h

/-- Settles O11: the value delivered is what a read of STATUS gives. -/
theorem readingStatusChangesNoBlockState : Obligations.ReadingStatusChangesNoBlockState := by
  intro s h hmove
  obtain ⟨reserved, kept⟩ := statusReservedBitsReadZero s
  exact ⟨s.readStatus, reserved, kept, step_of_input hmove⟩

/-- Settles O53: the event could happen because its host was free. -/
theorem hostIssuesOnlyWhenFree : Obligations.HostIssuesOnlyWhenFree := by
  intro s h c hmove
  obtain ⟨noCommand, noResponse⟩ := hostFree_iff.mp (ready_of_nextMove hmove)
  exact ⟨noCommand, noResponse, _, step_of_input hmove, rfl, rfl, rfl, rfl⟩

/-- Where no host is busy twice, one response at most waits for a host. -/
theorem host_ne_of_mem_erase {s : State} (hok : s.hostsOk) {p p' : PendingResponse} (hp : p ∈ s.responses)
    (hp' : p' ∈ s.responses.erase p) : p'.host ≠ p.host := by
  have nodup : (s.responses.map PendingResponse.host).Nodup := hok.of_append_right
  have hperm := (List.perm_cons_erase hp).map PendingResponse.host
  have notIn := (List.nodup_cons.mp (hperm.nodup_iff.mp nodup)).1
  exact fun same => notIn (List.mem_map.mpr ⟨p', hp', same⟩)

/-- Settles O54: the accepted response is the one the host finds, and its host has no other. -/
theorem hostAcceptsItsResponse : Obligations.HostAcceptsItsResponse := by
  intro s h hok hmove
  obtain ⟨⟨_, r⟩, hp, rfl, -, accepted⟩ :=
    acceptResponse_of_ready (s := s.countChoice.popInput) (ready_of_nextMove (s := s) hmove)
  refine ⟨r, hp, fun p' hp' => host_ne_of_mem_erase hok hp hp', (step_of_input hmove).trans ?_⟩
  exact congrArg Host.Outcome.next accepted

/-- Settles O56: the fields of the state that the reset input leaves. -/
theorem resetInputRestoresResetState : Obligations.ResetInputRestoresResetState := fun _ hmove =>
  ⟨_, step_of_input hmove, rfl, rfl, rfl, rfl, rfl⟩

/-! ## Returned responses (10_state.md R29, 70_reset_and_hazards.md R238) -/

/-- Settles O55: of the moves, performing a command adds a response, an accept delivers one, and the other events but a
reset leave the responses alone. -/
theorem returnedResponsesNeverChange : Obligations.ReturnedResponsesNeverChange := by
  intro s t h
  rcases step_cases h with ⟨-, rfl⟩ | ⟨q, u, -, -, performed, rfl⟩ | ⟨e, hmove, -, ready, rfl⟩
  · exact ⟨List.prefix_rfl, .inl List.prefix_rfl⟩
  · have delivered : u.delivered = s.delivered := (perform_delivered performed :)
    have responses : u.responses = s.responses := (perform_responses performed :)
    rw [State.respondTo_delivered, State.respondTo_responses, delivered, responses]
    exact ⟨List.prefix_rfl, .inl (List.prefix_append _ _)⟩
  · cases e with
    | issue h c => exact ⟨List.prefix_rfl, .inl List.prefix_rfl⟩
    | accept h =>
      obtain ⟨p, hp, rfl, -, accepted⟩ := acceptResponse_of_ready (s := s.countChoice.popInput) ready
      rw [State.applyInput, accepted]
      exact ⟨List.prefix_append _ _, .inr (.inl ⟨p, List.perm_cons_erase hp, rfl⟩)⟩
    | readStatus h => exact ⟨List.prefix_append _ _, .inl List.prefix_rfl⟩
    | reset => exact ⟨List.prefix_rfl, .inr (.inr hmove)⟩

theorem State.received_of_delivered_response {s t : State} {g : Nat} {r : Response}
    (h : t.delivered = s.delivered ++ [.response g r]) (k : Nat) :
    t.received k = s.received k ++ if g = k then [r] else [] := by
  rw [State.received, h, List.filterMap_append]
  by_cases hk : g = k
  · simp [State.received, hk]
  · simp [State.received, hk]

/-- The first element that passes a test leads the list of those that pass it; the rest are those without it. -/
theorem filter_eq_cons_of_find? {α : Type} [BEq α] [LawfulBEq α] {p : α → Bool} {a : α} {l : List α}
    (h : l.find? p = some a) : l.filter p = a :: (l.erase a).filter p := by
  rw [← List.head?_filter] at h
  obtain ⟨rest, hrest⟩ := List.head?_eq_some_iff.mp h
  rw [← List.erase_filter, hrest, List.erase_cons_head]

theorem filter_erase_of_not {α : Type} [BEq α] [LawfulBEq α] {p : α → Bool} {a : α} (l : List α)
    (h : p a = false) : (l.erase a).filter p = l.filter p := by
  rw [← List.erase_filter, List.erase_of_not_mem (by simp [h])]

/-- What was returned to each host is the same after an accept: the response moves from the port to those received. -/
theorem returned_of_acceptResponse {s : State} {g : Nat} (ready : s.inputReady (.accept g) = true) (h : Nat) :
    (s.acceptResponse g).returned h = s.returned h := by
  obtain ⟨p, -, rfl, hfind, accepted⟩ := acceptResponse_of_ready ready
  have received := State.received_of_delivered_response (s := s) (t := s.acceptResponse p.host)
    (by rw [accepted]) h
  have responses : (s.acceptResponse p.host).responses = s.responses.erase p := by rw [accepted]
  rw [State.returned, received, responses, State.returned]
  by_cases hh : p.host = h
  · subst hh
    simp [filter_eq_cons_of_find? hfind]
  · simp [hh, filter_erase_of_not]

/-- Events that are no issue and no reset keep what was returned to each host, and what it received at the front; where
no response waits they keep what it received. -/
theorem returned_of_applyInput {s : State} {e : Input} (ready : s.inputReady e = true) (hissue : e.isIssue = false)
    (hreset : e ≠ .reset) (h : Nat) :
    (s.applyInput e).returned h = s.returned h ∧ s.received h <+: (s.applyInput e).received h ∧
      (s.responses = [] → (s.applyInput e).received h = s.received h) := by
  cases e with
  | issue g c => cases hissue
  | accept g =>
    refine ⟨returned_of_acceptResponse ready h, ?_, fun empty => ?_⟩
    · obtain ⟨p, -, rfl, -, accepted⟩ := acceptResponse_of_ready ready
      have received := State.received_of_delivered_response (s := s) (t := s.acceptResponse p.host)
        (by rw [accepted]) h
      rw [State.applyInput, received]
      exact List.prefix_append _ _
    · simp [State.inputReady, empty] at ready
  | readStatus g =>
    have received : (s.applyInput (.readStatus g)).received h = s.received h := by
      simp [State.received, State.applyInput]
    refine ⟨?_, by rw [received], fun _ => received⟩
    rw [State.returned, received]
    rfl
  | reset => exact absurd rfl hreset

theorem inputs_of_applyInput (s : State) (e : Input) : (s.applyInput e).inputs = s.inputs := by
  by_cases he : e = .reset
  · rw [he]
    rfl
  · rw [applyInput_frame s he]

theorem outstanding_of_acceptResponse (s : State) (h : Nat) : (s.acceptResponse h).outstanding = s.outstanding := by
  unfold State.acceptResponse
  split
  · rfl
  · rfl

/-- An event that is no issue adds no command. -/
theorem outstanding_sublist_of_applyInput (s : State) {e : Input} (hissue : e.isIssue = false) :
    (s.applyInput e).outstanding.Sublist s.outstanding := by
  cases e with
  | issue h c => cases hissue
  | accept h => exact outstanding_of_acceptResponse s h ▸ List.Sublist.refl _
  | readStatus h => exact List.Sublist.refl _
  | reset => exact List.nil_sublist _

/-- Settles O58: a run that is over has no command to perform, and the event that happens is no issue. -/
theorem runOverIsFinal : Obligations.RunOverIsFinal := by
  rintro s t ⟨hout, hin⟩ h
  rcases step_cases h with ⟨-, rfl⟩ | ⟨q, u, -, hq, -⟩ | ⟨e, hmove, hhead, ready, rfl⟩
  · exact ⟨⟨hout, hin⟩, fun _ => ⟨rfl, rfl, fun _ => rfl, fun _ => List.prefix_rfl, fun _ _ => rfl⟩⟩
  · simp [hout] at hq
  · have hissue : e.isIssue = false := hin e (List.mem_of_head? hhead)
    have ended : (s.countChoice.popInput.applyInput e).runOver := by
      refine ⟨List.sublist_nil.mp (hout ▸ outstanding_sublist_of_applyInput _ hissue), fun e' he' => ?_⟩
      rw [inputs_of_applyInput] at he'
      exact hin e' (List.mem_of_mem_tail he')
    refine ⟨ended, fun hreset => ?_⟩
    have he : e ≠ .reset := fun reset => hreset (reset ▸ hmove)
    have frame := applyInput_frame s.countChoice.popInput he
    have stores : (s.countChoice.popInput.applyInput e).stores = s.stores := (congrArg State.stores frame :)
    have status : (s.countChoice.popInput.applyInput e).readStatus = s.readStatus :=
      (congrArg State.readStatus frame :)
    have hosts := returned_of_applyInput (s := s.countChoice.popInput) ready hissue he
    refine ⟨stores, status, fun h => (hosts h).1, fun h => (hosts h).2.1, fun empty h => ?_⟩
    have received : (s.countChoice.popInput.applyInput e).received h = s.received h := (hosts h).2.2 empty
    rw [State.observe, stores, status, received, State.observe]

/-! ## Progress (20_memory.md R52, 70_reset_and_hazards.md R237) -/

/-- A bound on the steps until nothing is outstanding and nothing is to come: an event may issue a command, which is
then to be performed. -/
def State.work (s : State) : Nat := 2 * s.inputs.length + s.outstanding.length

theorem outstanding_length_of_applyInput (s : State) (e : Input) :
    (s.applyInput e).outstanding.length ≤ s.outstanding.length + 1 := by
  cases e with
  | issue h c => exact List.length_append.le
  | accept h => exact (congrArg List.length (outstanding_of_acceptResponse s h)).trans_le (Nat.le_succ _)
  | readStatus h => exact Nat.le_succ _
  | reset => exact Nat.zero_le _

/-- A step waits, or leaves less work. -/
theorem work_lt_of_step {s t : State} (h : step s = .next t) :
    (s.nextMove = none ∧ t = s) ∨ t.work < s.work := by
  rcases step_cases h with waits | ⟨q, u, -, hq, performed, rfl⟩ | ⟨e, -, hhead, -, rfl⟩
  · exact .inl waits
  · right
    have inputs : u.inputs = s.inputs := (perform_inputs performed :)
    have outstanding : u.outstanding = s.outstanding.erase q := (perform_outstanding performed :)
    have hpos := List.length_pos_of_mem hq
    simp only [State.work, State.respondTo_inputs, State.respondTo_outstanding, inputs, outstanding,
      List.length_erase_of_mem hq]
    omega
  · right
    have hout := outstanding_length_of_applyInput s.countChoice.popInput e
    have hpos : 0 < s.inputs.length := List.length_pos_of_mem (List.mem_of_head? hhead)
    simp only [State.popInput_outstanding, State.countChoice_outstanding] at hout
    simp only [State.work, inputs_of_applyInput, State.popInput_inputs, State.countChoice_inputs, List.length_tail]
    omega

theorem run_succ {s t : State} (h : step s = .next t) (k : Nat) :
    Host.Core.run core (k + 1) s = Host.Core.run core k t := by
  have hstep : core.step s = .next t := h
  simp only [Host.Core.run, hstep]

theorem run_of_no_move {s : State} (h : s.nextMove = none) (k : Nat) : Host.Core.run core k s = .next s := by
  induction k with
  | zero => rfl
  | succ k ih => rw [run_succ (step_of_no_move h), ih]

theorem outstanding_nil_of_no_move {s : State} (h : s.nextMove = none) : s.outstanding = [] := by
  by_contra hout
  exact moves_ne_nil hout (nextMove_eq_none.mp h)

/-- Settles O60: each step leaves less work, until the block waits with nothing outstanding. -/
theorem outstandingCommandsAreEventuallyPerformed : Obligations.OutstandingCommandsAreEventuallyPerformed := by
  intro s hinv k hk
  change s.work ≤ k at hk
  induction k generalizing s with
  | zero =>
    have none_left : s.outstanding.length = 0 := by
      simp only [State.work] at hk
      omega
    exact ⟨s, rfl, List.length_eq_zero_iff.mp none_left⟩
  | succ k ih =>
    obtain ⟨t, hstep⟩ := noStepStops s hinv
    rcases work_lt_of_step hstep with ⟨waits, -⟩ | less
    · exact ⟨s, run_of_no_move waits _, outstanding_nil_of_no_move waits⟩
    · rw [run_succ hstep]
      exact ih t (everyStepKeepsTheInvariant s t hinv hstep) (by omega)

/-- A command stays outstanding until it is performed or a reset comes. -/
theorem outstanding_of_openStep {s t : State} {m : Option Move} (h : OpenStep s m t) {q : Request}
    (hq : q ∈ s.outstanding) (hperform : m ≠ some (.perform q)) (hreset : m ≠ some (.input .reset)) :
    q ∈ t.outstanding := by
  rcases openStep_cases h with ⟨-, events, rfl⟩ | ⟨q', u, rfl, -, performed, rfl⟩ | ⟨e, rfl, -, -, rfl⟩
  · exact hq
  · have outstanding : u.outstanding = s.outstanding.erase q' := (perform_outstanding performed :)
    have hne : q ≠ q' := fun same => hperform (same ▸ rfl)
    rw [State.respondTo_outstanding, outstanding]
    exact (List.mem_erase_of_ne hne).mpr hq
  · cases e with
    | issue g c => exact List.mem_append_left _ hq
    | accept g => exact (outstanding_of_acceptResponse s.countChoice.popInput g).symm ▸ hq
    | readStatus g => exact hq
    | reset => exact absurd rfl hreset

/-- Where no host is busy twice, a host has one command outstanding at most. -/
theorem eq_of_host_eq {s : State} (hok : s.hostsOk) {q q' : Request} (hq : q ∈ s.outstanding)
    (hq' : q' ∈ s.outstanding) (h : q.host = q'.host) : q = q' :=
  List.inj_on_of_nodup_map hok.of_append_left hq hq' h

theorem inv_of_openRun {state : Nat → State} {move : Nat → Option Move} (hinv : (state 0).Inv)
    (run : OpenRun state move) (k : Nat) : (state k).Inv := by
  induction k with
  | zero => exact hinv
  | succ k ih => exact inv_of_openStep ih (run k)

/-- Settles O59: a command that is never performed nor discarded stays outstanding, so by fairness its host has a command
performed, which can only be that one. -/
theorem fairRunsPerformEveryCommand : Obligations.FairRunsPerformEveryCommand := by
  intro state move hinv run fair k q hq
  by_contra! never
  have stays : ∀ j, k ≤ j → q ∈ (state j).outstanding := by
    intro j hj
    induction j, hj using Nat.le_induction with
    | base => exact hq
    | succ j hj ih => exact outstanding_of_openStep (run j) ih (never j hj).1 (never j hj).2
  obtain ⟨j, q', hj, hhost, hmove⟩ := fair q.host k fun j hj => ⟨q, stays j hj, rfl⟩
  have moved := run j
  rw [hmove] at moved
  have hq' : q' ∈ (state j).outstanding := mem_moves_perform.mp moved.1
  obtain ⟨-, -, hosts⟩ := inv_of_openRun hinv run j
  obtain rfl := eq_of_host_eq hosts hq' (stays j hj) hhost
  exact (never j hj).1 hmove

end Sys2Proof.Machine

namespace Sys2Proof.Machine

/-! ## Runs of the step relation (10_state.md R32; 20_memory.md R49, R50) -/

/-- What every step that passes the test keeps, a run whose steps all pass it keeps. -/
theorem HostRun.keeps {test : Move → Bool} {h : Nat} {log : List (Command × Response)} {s t : State}
    (run : HostRun test h log s t) {P : State → Prop}
    (kept : ∀ m a b, m.all test = true → OpenStep a m b → P a → P b) (hs : P s) : P t := by
  induction run with
  | done s => exact hs
  | step m passes move rest ih => exact ih (kept m _ _ passes move hs)

theorem QuietRun.hostRun {slot : Slot} {k : Nat} {s t : State} (run : QuietRun slot k s t) (h : Nat) :
    ∃ log, HostRun (Move.keeps slot) h log s t := by
  induction run with
  | stay s => exact ⟨[], .done s⟩
  | step m quiet move rest ih =>
    obtain ⟨log, tail⟩ := ih
    exact ⟨_, .step m quiet move tail⟩

/-- A command in the record of a host was performed at a point of the run, with the response in the record. -/
theorem HostRun.performed {test : Move → Bool} {h : Nat} {log : List (Command × Response)} {s t : State}
    (run : HostRun test h log s t) {c : Command} {r : Response} (mem : (c, r) ∈ log) :
    ∃ (a u : State) (q : Request) (before after : List (Command × Response)), HostRun test h before s a ∧
      (a.countChoice.dropRequest q).perform c = .next u ∧ u.resp = r ∧ HostRun test h after (u.respondTo q.host) t := by
  induction run with
  | done s => cases mem
  | @step log s t' t m passes move rest ih =>
    rcases List.mem_append.mp mem with now | later
    · rcases openStep_cases move with ⟨rfl, -⟩ | ⟨q, u, rfl, -, performed, rfl⟩ | ⟨e, rfl, -⟩
      · cases now
      · have entry : (c, r) = (q.cmd, u.resp) := by
          simp only [State.logEntry] at now
          split at now
          · exact List.mem_singleton.mp now
          · cases now
        cases entry
        exact ⟨s, u, q, [], log, .done s, performed, rfl, rest⟩
      · cases now
    · obtain ⟨a, u, q, before, after, start, performed, resp, finish⟩ := ih later
      exact ⟨a, u, q, _, after, .step m passes move start, performed, resp, finish⟩

theorem exec_cfg {i : Instr} {s t : State} (h : exec i s = .next t) : t.cfg = s.cfg :=
  (congrArg State.cfg (commandsChangeNothingElse i s t h) :)

theorem cfg_of_openStep {s t : State} {m : Option Move} (h : OpenStep s m t) : t.cfg = s.cfg := by
  rcases openStep_cases h with ⟨-, events, rfl⟩ | ⟨q, u, -, -, performed, rfl⟩ | ⟨e, -, -, -, rfl⟩
  · rfl
  · exact (perform_cfg performed :)
  · by_cases he : e = .reset
    · subst he
      rfl
    · rw [applyInput_frame _ he]
      rfl

theorem HostRun.cfg_eq {test : Move → Bool} {h : Nat} {log : List (Command × Response)} {s t : State}
    (run : HostRun test h log s t) : t.cfg = s.cfg :=
  run.keeps (P := fun a => a.cfg = s.cfg) (fun _ _ _ _ move kept => (cfg_of_openStep move).trans kept) rfl

theorem HostRun.storesOk {test : Move → Bool} {h : Nat} {log : List (Command × Response)} {s t : State}
    (run : HostRun test h log s t) (hok : s.storesOk) : t.storesOk :=
  run.keeps (P := State.storesOk) (fun _ _ _ _ move kept => storesOk_of_openStep kept move) hok

/-! ## Slots that a run does not write (40_bitstore.md R120) -/

theorem exec_slot_of_writes_ne {i : Instr} {s t : State} {slot : Slot} (h : exec i s = .next t)
    (hne : i.writes ≠ some slot) : t.stores[slot.toNat]? = s.stores[slot.toNat]? :=
  (commandsWriteOnlyTheirSlot i s t h).2 _ fun _ hd same => hne (hd.trans (BitVec.eq_of_toNat_eq same ▸ rfl))

theorem stores_of_applyInput (s : State) {e : Input} (he : e ≠ .reset) : (s.applyInput e).stores = s.stores := by
  rw [applyInput_frame s he]

theorem slot_of_openStep_spares {slot : Slot} {s t : State} {m : Option Move} (spared : m.all (Move.spares slot) = true)
    (h : OpenStep s m t) : t.stores[slot.toNat]? = s.stores[slot.toNat]? := by
  rcases openStep_cases h with ⟨-, events, rfl⟩ | ⟨q, u, rfl, -, performed, rfl⟩ | ⟨e, rfl, -, -, rfl⟩
  · rfl
  · rcases perform_cases performed with ⟨e, -, rfl⟩ | ⟨i, hdec, ran⟩
    · rfl
    · have hne : i.writes ≠ some slot := by simpa [Move.spares, hdec] using spared
      exact (exec_slot_of_writes_ne ran hne :)
  · have he : e ≠ .reset := by
      rintro rfl
      cases spared
    rw [stores_of_applyInput _ he]
    rfl

theorem HostRun.slot_of_spares {slot : Slot} {h : Nat} {log : List (Command × Response)} {s t : State}
    (run : HostRun (Move.spares slot) h log s t) : t.stores[slot.toNat]? = s.stores[slot.toNat]? :=
  run.keeps (P := fun a => a.stores[slot.toNat]? = s.stores[slot.toNat]?)
    (fun _ _ _ spared move kept => (slot_of_openStep_spares spared move).trans kept) rfl

/-- Settles O21: no command changes a slot it does not write, so neither does a run whose moves all spare the slot. -/
theorem copyIsIndependent : Obligations.CopyIsIndependent := by
  intro s t u sd ss h log hne copied
  have source : t.stores[ss.toNat]? = s.stores[ss.toNat]? :=
    exec_slot_of_writes_ne copied fun same => hne (Option.some.inj same)
  refine ⟨fun _ c j v ran => ⟨fun hj => ?_, fun hj => ?_⟩, fun run => run.slot_of_spares.trans source,
    fun run => run.slot_of_spares⟩
  · exact exec_slot_of_writes_ne (s := u.latch c) ran fun same => hne (Option.some.inj (hj.symm.trans same))
  · exact exec_slot_of_writes_ne (s := u.latch c) ran fun same => hne (Option.some.inj (same.symm.trans hj))

/-! ## A set bit stays set (20_memory.md R55) -/

/-- The slot holds a store of this size whose bit i is set. -/
def State.HasBit (s : State) (slot : Slot) (size i : Nat) : Prop :=
  ∃ st, s.holds slot st ∧ st.size = size ∧ st.bit i = true

theorem Store.lt_size_of_bit {st : Store} {i : Nat} (h : st.bit i = true) : i < st.size := by
  by_contra hge
  simp [st.bit_of_size_le (not_lt.mp hge)] at h

theorem hasBit_of_exec {i : Instr} {s t : State} {slot : Slot} {size j : Nat} (hbit : s.HasBit slot size j)
    (h : exec i s = .next t) (hne : i.rebuilds ≠ some slot) : t.HasBit slot size j := by
  obtain ⟨st, hst, hsize, hset⟩ := hbit
  rcases exec_slot_cases h slot.toNat with same | ⟨d, st₁, st', -, hd, hst₁, hchange, hst'⟩
  · exact ⟨st, ⟨(exec_cfg h).symm ▸ hst.1, same.trans hst.2⟩, hsize, hset⟩
  · obtain rfl := BitVec.eq_of_toNat_eq hd
    obtain rfl := hst.unique hst₁
    obtain ⟨hwc, hbits⟩ := hchange.keeps hne
    exact ⟨st', hst', by rw [← hsize, Store.size, hwc, Store.size], hbits j hset⟩

theorem hasBit_of_openStep {s t : State} {m : Option Move} {slot : Slot} {size j : Nat} (hbit : s.HasBit slot size j)
    (quiet : m.all (Move.keeps slot) = true) (h : OpenStep s m t) : t.HasBit slot size j := by
  rcases openStep_cases h with ⟨-, events, rfl⟩ | ⟨q, u, rfl, -, performed, rfl⟩ | ⟨e, rfl, -, -, rfl⟩
  · exact hbit
  · rcases perform_cases performed with ⟨e, -, rfl⟩ | ⟨i, hdec, ran⟩
    · exact hbit
    · have hne : i.rebuilds ≠ some slot := by simpa [Move.keeps, hdec] using quiet
      exact (hasBit_of_exec (s := (s.countChoice.dropRequest q).latch q.cmd) hbit ran hne :)
  · have he : e ≠ .reset := by
      rintro rfl
      cases quiet
    rw [applyInput_frame _ he]
    exact hbit

theorem HostRun.hasBit {slot : Slot} {h : Nat} {log : List (Command × Response)} {s t : State} {size j : Nat}
    (run : HostRun (Move.keeps slot) h log s t) (hbit : s.HasBit slot size j) : t.HasBit slot size j :=
  run.keeps (P := fun a => a.HasBit slot size j) (fun _ _ _ quiet move kept => hasBit_of_openStep kept quiet move) hbit

theorem QuietRun.hasBit {slot : Slot} {k : Nat} {s t : State} {size j : Nat} (run : QuietRun slot k s t)
    (hbit : s.HasBit slot size j) : t.HasBit slot size j := by
  obtain ⟨log, hostRun⟩ := run.hostRun 0
  exact hostRun.hasBit hbit

theorem exec_gethash_of_hasBit {s : State} {sd : Slot} {size : Nat} (h : s.HasBit sd size (s.cmd.a.toNat % size)) :
    exec (.gethash sd) s = .next (s.succeeded s.stores 1 [] []) := by
  obtain ⟨st, hst, rfl, hset⟩ := h
  rw [exec_gethash hst (Nat.zero_lt_of_lt (Store.lt_size_of_bit hset)), hset]
  rfl

theorem exec_getbit_of_hasBit {s : State} {sd : Slot} {size : Nat} (h : s.HasBit sd size s.cmd.a.toNat) :
    exec (.getbit sd) s = .next (s.succeeded s.stores 1 [] []) := by
  obtain ⟨st, hst, -, hset⟩ := h
  rw [exec_getbit_of_lt hst (Store.lt_size_of_bit hset), hset]
  rfl

theorem State.holds.hasBit_after_orBit {s : State} {sd : Slot} {st : Store} (hst : s.holds sd st) {i : Nat}
    (hi : i < st.size) (r : Word) :
    (s.succeeded (s.stores.set sd.toNat (st.orBit i)) r [] []).HasBit sd st.size i :=
  ⟨st.orBit i, hst.after_write _ r, by simp [Store.size], by simp [st.bit_orBit hi]⟩

/-- SETHASH leaves set the bit that its seed selects (42_index_mux.md R172). -/
theorem exists_hasBit_of_sethash {s t : State} {sd : Slot} (h : exec (.sethash sd) s = .next t)
    (hok : s.storesOk) (hsd : s.cfg.slotLegal sd = true) : ∃ size, t.HasBit sd size (s.cmd.a.toNat % size) := by
  obtain ⟨st, hst, -⟩ := hok.reach hsd
  have hpos := size_pos_of_holds hok hst
  obtain rfl := Host.Outcome.next.inj ((exec_sethash hst hpos).symm.trans h)
  exact ⟨st.size, hst.hasBit_after_orBit (Nat.mod_lt _ hpos) _⟩

/-- SETBIT of an in-range index leaves its bit set (40_bitstore.md R107). -/
theorem exists_hasBit_of_setbit {s t : State} {sd : Slot} (h : exec (.setbit sd) s = .next t) (hok : s.storesOk)
    (hsd : s.cfg.slotLegal sd = true) (hlt : s.cmd.a.toNat < s.wcAt sd.toNat * 64) :
    ∃ size, t.HasBit sd size s.cmd.a.toNat := by
  obtain ⟨st, hst, -⟩ := hok.reach hsd
  have hlt : s.cmd.a.toNat < st.size := by rwa [hst.wcAt_eq] at hlt
  obtain rfl := Host.Outcome.next.inj ((exec_setbit_of_lt hst hlt).symm.trans h)
  exact ⟨st.size, hst.hasBit_after_orBit hlt _⟩

/-- A command that clears a bit rebuilds its slot. -/
theorem rebuilds_of_cleared_bit {i : Instr} {s v : State} {n j : Nat} (h : exec i s = .next v)
    (before : s.bitAt n j = true) (after : v.bitAt n j = false) : ∃ d, i.rebuilds = some d ∧ d.toNat = n := by
  rcases exec_slot_cases h n with same | ⟨d, st, st', -, rfl, hst, hchange, hst'⟩
  · rw [State.bitAt_congr same, before] at after
    cases after
  · refine ⟨d, by_contra fun hne => ?_, rfl⟩
    have kept := (hchange.keeps hne).2 j (hst.bitAt_eq j ▸ before)
    rw [hst'.bitAt_eq, kept] at after
    cases after

/-- Settles O40: the bit that was set is still set in the slot, whose size is the same, and a command that clears a bit
rebuilds its slot. -/
theorem noFalseNegatives : Obligations.NoFalseNegatives := by
  intro s t u sd k c hok hsd run hc
  refine ⟨fun sethash => ?_, fun setbit hlt => ?_, fun i v n j h before after => rebuilds_of_cleared_bit h before after⟩
  · obtain ⟨size, hbit⟩ := exists_hasBit_of_sethash sethash hok hsd
    have found : (u.latch c).HasBit sd size ((u.latch c).cmd.a.toNat % size) := hc.symm ▸ run.hasBit hbit
    exact ⟨_, exec_gethash_of_hasBit found, rfl⟩
  · obtain ⟨size, hbit⟩ := exists_hasBit_of_setbit setbit hok hsd hlt
    have found : (u.latch c).HasBit sd size (u.latch c).cmd.a.toNat := hc.symm ▸ run.hasBit hbit
    exact ⟨_, exec_getbit_of_hasBit found, rfl⟩

end Sys2Proof.Machine

namespace Sys2Proof.Machine

/-! ## The commands of ADD and TEST (30_encoding.md R71, R72) -/

/-- The bit that a seed selects in the slot is set. -/
def State.Probed (s : State) (sd : Slot) (x : Word) : Prop := ∃ size, s.HasBit sd size (x.toNat % size)

/-- The seeds that MUX answers in a build: none where it refuses the digest (42_index_mux.md R161). -/
def seedsOf (c : Config) (digest : List Byte) : List Word :=
  if digest.length ≤ c.muxMaxBytes then parseWords digest else []

theorem seedsOf_of_short {c : Config} {digest : List Byte} (h : digest.length < 8) : seedsOf c digest = [] := by
  have : parseWords digest = [] := List.length_eq_zero_iff.mp (by rw [parseWords_length]; omega)
  simp [seedsOf, this]

/-- A command ended without an error: its stores apart, the state is as it was for a command that follows. -/
structure EndsOk (s t : State) : Prop where
  cfg : t.cfg = s.cfg
  status : t.status = statusOkEnd s.status
  err : t.resp.err = 0

theorem endsOk_succeeded (s : State) (c : Command) (stores : List Store) (r : Word) (outb : List Byte)
    (outs : List Word) : EndsOk s ((s.latch c).succeeded stores r outb outs) := ⟨rfl, rfl, rfl⟩

theorem decode_muxCommand (digest : List Byte) : decode (muxCommand digest).cw = .ok .mux := decodeOfEncode .mux

theorem decode_sethashCommand (sd : Slot) (x : Word) : decode (sethashCommand sd x).cw = .ok (.sethash sd) :=
  decodeOfEncode (.sethash sd)

theorem decode_gethashCommand (sd : Slot) (x : Word) : decode (gethashCommand sd x).cw = .ok (.gethash sd) :=
  decodeOfEncode (.gethash sd)

/-- MUX answers the seeds, changes no store, and ends without an error within its bound. -/
theorem perform_mux (s : State) (digest : List Byte) :
    ∃ t, s.perform (muxCommand digest) = .next t ∧ t.cfg = s.cfg ∧ t.stores = s.stores ∧
      t.resp.outs = seedsOf s.cfg digest ∧ (digest.length ≤ s.cfg.muxMaxBytes → EndsOk s t) := by
  rw [perform_of_decode_ok (decode_muxCommand digest)]
  rcases Nat.lt_or_ge s.cfg.muxMaxBytes digest.length with hlong | hfits
  · exact ⟨_, exec_mux_of_long (s := s.latch (muxCommand digest)) hlong, rfl, rfl, (if_neg hlong.not_ge).symm,
      fun hfits => absurd hfits hlong.not_ge⟩
  · exact ⟨_, exec_mux_of_fits (s := s.latch (muxCommand digest)) hfits, rfl, rfl, (if_pos hfits).symm,
      fun _ => endsOk_succeeded ..⟩

theorem perform_sethash {s : State} {sd : Slot} {st : Store} (hst : s.holds sd st) (hpos : 0 < st.size) (x : Word) :
    s.perform (sethashCommand sd x) = .next ((s.latch (sethashCommand sd x)).succeeded
      (s.stores.set sd.toNat (st.orBit (x.toNat % st.size))) (toPort (x.toNat % st.size)) [] []) := by
  rw [perform_of_decode_ok (decode_sethashCommand sd x)]
  exact exec_sethash (s := s.latch (sethashCommand sd x)) hst hpos

/-- In a state whose stores are legal SETHASH of a seed on a legal slot ends without an error, and its bit is set. -/
theorem perform_sethash_probed {s : State} {sd : Slot} (hok : s.storesOk) (hsd : s.cfg.slotLegal sd = true)
    (x : Word) : ∃ t, s.perform (sethashCommand sd x) = .next t ∧ EndsOk s t ∧ t.Probed sd x := by
  obtain ⟨st, hst, -⟩ := hok.reach hsd
  have hpos := size_pos_of_holds hok hst
  refine ⟨_, perform_sethash hst hpos x, endsOk_succeeded .., st.size, ?_⟩
  exact State.holds.hasBit_after_orBit (s := s.latch (sethashCommand sd x)) hst (Nat.mod_lt _ hpos) _

/-- SETHASH clears no bit. -/
theorem probed_of_sethash {s t : State} {sd : Slot} {x y : Word} (h : s.perform (sethashCommand sd x) = .next t)
    (hy : s.Probed sd y) : t.Probed sd y := by
  rw [perform_of_decode_ok (decode_sethashCommand sd x)] at h
  obtain ⟨size, hbit⟩ := hy
  have noRebuild : (Instr.sethash sd).rebuilds ≠ some sd := nofun
  exact ⟨size, hasBit_of_exec (s := s.latch (sethashCommand sd x)) hbit h noRebuild⟩

/-- Two stores with the same word count and the same bits are the same. -/
theorem Store.eq_of_bits {x y : Store} (hwc : x.wc = y.wc) (hbits : ∀ j, x.bit j = y.bit j) : x = y := by
  refine congrArg Store.mk (Store.words_eq_iff.mpr ⟨hwc, fun k _ => BitVec.eq_of_getLsbD_eq fun b hb => ?_⟩)
  simpa [Store.bit, show (64 * k + b) / 64 = k by omega, Nat.mod_eq_of_lt hb] using hbits (64 * k + b)

theorem Store.orBit_of_bit {st : Store} {i : Nat} (h : st.bit i = true) : st.orBit i = st := by
  refine Store.eq_of_bits (st.orBit_wc i) fun j => ?_
  rw [st.bit_orBit (Store.lt_size_of_bit h)]
  by_cases hj : j = i
  · simp [hj, h]
  · simp [hj]

/-- SETHASH of a seed whose bit is set changes no store. -/
theorem perform_sethash_of_probed {s : State} {sd : Slot} {x : Word} (h : s.Probed sd x) :
    ∃ t, s.perform (sethashCommand sd x) = .next t ∧ t.stores = s.stores := by
  obtain ⟨_, st, hst, rfl, hset⟩ := h
  refine ⟨_, perform_sethash hst (Nat.zero_lt_of_lt (Store.lt_size_of_bit hset)) x, ?_⟩
  change s.stores.set sd.toNat (st.orBit _) = s.stores
  rw [Store.orBit_of_bit hset, hst.set_self]

/-- In a state whose stores are legal GETHASH of a seed on a legal slot ends without an error and changes no store. -/
theorem perform_gethash {s : State} {sd : Slot} (hok : s.storesOk) (hsd : s.cfg.slotLegal sd = true) (x : Word) :
    ∃ t, s.perform (gethashCommand sd x) = .next t ∧ EndsOk s t ∧ t.stores = s.stores := by
  obtain ⟨st, hst, -⟩ := hok.reach hsd
  rw [perform_of_decode_ok (decode_gethashCommand sd x)]
  exact ⟨_, exec_gethash (s := s.latch (gethashCommand sd x)) hst (size_pos_of_holds hok hst),
    endsOk_succeeded .., rfl⟩

/-- GETHASH of a seed whose bit is set answers 1. -/
theorem perform_gethash_of_probed {s : State} {sd : Slot} {x : Word} (h : s.Probed sd x) :
    ∃ t, s.perform (gethashCommand sd x) = .next t ∧ EndsOk s t ∧ t.stores = s.stores ∧ t.resp.r = 1 := by
  obtain ⟨size, hbit⟩ := h
  rw [perform_of_decode_ok (decode_gethashCommand sd x)]
  exact ⟨_, exec_gethash_of_hasBit (s := s.latch (gethashCommand sd x)) hbit, endsOk_succeeded .., rfl, rfl⟩

/-- The bits that are set are those of the stores. -/
theorem State.Probed.congr {s t : State} {sd : Slot} {x : Word} (h : s.Probed sd x) (hcfg : t.cfg = s.cfg)
    (hstores : t.stores = s.stores) : t.Probed sd x := by
  obtain ⟨size, st, hst, hsize, hset⟩ := h
  exact ⟨size, st, ⟨hcfg.symm ▸ hst.1, hstores.symm ▸ hst.2⟩, hsize, hset⟩

theorem storesOk_congr {s t : State} (h : s.storesOk) (hcfg : t.cfg = s.cfg) (hstores : t.stores = s.stores) :
    t.storesOk := by
  rw [State.storesOk, hcfg, hstores]
  exact h

/-! ## Uninterrupted ADD and TEST (log 15) -/

/-- The end of a command without an error sets no sticky bit. -/
theorem EndsOk.sticky {s t : State} (h : EndsOk s t) : t.status >>> 8 = s.status >>> 8 := by
  apply BitVec.eq_of_getLsbD_eq
  intro b _
  rw [BitVec.getLsbD_ushiftRight, BitVec.getLsbD_ushiftRight, h.status, statusOkEnd_getLsbD (Nat.le_add_right 8 b)]

/-- What a run of SETHASH commands keeps, and the bits it leaves set. -/
structure SetsProbes (sd : Slot) (xs : List Word) (s t : State) : Prop where
  cfg : t.cfg = s.cfg
  storesOk : t.storesOk
  sticky : t.status >>> 8 = s.status >>> 8
  kept : ∀ x, s.Probed sd x → t.Probed sd x
  probed : ∀ x ∈ xs, t.Probed sd x

theorem setProbes_cons {s t : State} {sd : Slot} {x : Word} (h : s.perform (sethashCommand sd x) = .next t)
    (xs : List Word) : s.setProbes sd (x :: xs) = t.setProbes sd xs := by
  rw [State.setProbes, h]

theorem setProbes_completes {s : State} {sd : Slot} (hok : s.storesOk) (hsd : s.cfg.slotLegal sd = true)
    (xs : List Word) : ∃ t, s.setProbes sd xs = .next t ∧ SetsProbes sd xs s t := by
  induction xs generalizing s with
  | nil => exact ⟨s, rfl, rfl, hok, rfl, fun _ h => h, fun _ hx => absurd hx List.not_mem_nil⟩
  | cons x xs ih =>
    obtain ⟨t, performed, ended, hx⟩ := perform_sethash_probed hok hsd x
    obtain ⟨u, probes, sets⟩ := ih (storesOk_of_perform hok performed) (ended.cfg.symm ▸ hsd)
    refine ⟨u, (setProbes_cons performed xs).trans probes, sets.cfg.trans ended.cfg, sets.storesOk,
      sets.sticky.trans ended.sticky, fun y hy => sets.kept y (probed_of_sethash performed hy), fun y hy => ?_⟩
    rcases List.mem_cons.mp hy with rfl | hy
    · exact sets.kept y hx
    · exact sets.probed y hy

theorem setProbes_of_probed {s : State} {sd : Slot} {xs : List Word} (h : ∀ x ∈ xs, s.Probed sd x) :
    ∃ t, s.setProbes sd xs = .next t ∧ t.stores = s.stores := by
  induction xs generalizing s with
  | nil => exact ⟨s, rfl, rfl⟩
  | cons x xs ih =>
    obtain ⟨hx, hxs⟩ := List.forall_mem_cons.mp h
    obtain ⟨t, performed, stores⟩ := perform_sethash_of_probed hx
    obtain ⟨u, probes, same⟩ := ih fun y hy => probed_of_sethash performed (hxs y hy)
    exact ⟨u, (setProbes_cons performed xs).trans probes, same.trans stores⟩

/-- ADD runs to its end in a state whose stores are legal, on a legal slot, and leaves set the bits of its seeds. -/
theorem hostAdd_completes {s : State} {sd : Slot} (hok : s.storesOk) (hsd : s.cfg.slotLegal sd = true)
    (digest : List Byte) : ∃ t, s.hostAdd sd digest = .next t ∧ t.cfg = s.cfg ∧
      (∀ x ∈ seedsOf s.cfg digest, t.Probed sd x) ∧
      (digest.length ≤ s.cfg.muxMaxBytes → t.status >>> 8 = s.status >>> 8) := by
  obtain ⟨m, muxed, cfg, stores, outs, ended⟩ := perform_mux s digest
  obtain ⟨t, probes, sets⟩ := setProbes_completes (sd := sd) (storesOk_congr hok cfg stores) (cfg.symm ▸ hsd) m.resp.outs
  exact ⟨t, by rw [State.hostAdd, muxed]; exact probes, sets.cfg.trans cfg, outs ▸ sets.probed,
    fun hfits => sets.sticky.trans (ended hfits).sticky⟩

/-- ADD of a digest whose bits are set changes no store. -/
theorem hostAdd_of_probed {s : State} {sd : Slot} {digest : List Byte}
    (h : ∀ x ∈ seedsOf s.cfg digest, s.Probed sd x) : ∃ t, s.hostAdd sd digest = .next t ∧ t.stores = s.stores := by
  obtain ⟨m, muxed, cfg, stores, outs, -⟩ := perform_mux s digest
  obtain ⟨t, probes, same⟩ := setProbes_of_probed (s := m) (sd := sd) (xs := m.resp.outs)
    fun x hx => (h x (outs ▸ hx)).congr cfg stores
  exact ⟨t, by rw [State.hostAdd, muxed]; exact probes, same.trans stores⟩

theorem testProbes_completes {s : State} {sd : Slot} (hok : s.storesOk) (hsd : s.cfg.slotLegal sd = true)
    (xs : List Word) : ∃ b t, s.testProbes sd xs = .next (b, t) ∧ t.status >>> 8 = s.status >>> 8 := by
  induction xs generalizing s with
  | nil => exact ⟨true, s, rfl, rfl⟩
  | cons x xs ih =>
    obtain ⟨t, performed, ended, stores⟩ := perform_gethash hok hsd x
    rw [State.testProbes, performed]
    dsimp only
    split
    · exact ⟨false, t, rfl, ended.sticky⟩
    · obtain ⟨b, u, tested, sticky⟩ := ih (storesOk_congr hok ended.cfg stores) (ended.cfg.symm ▸ hsd)
      exact ⟨b, u, tested, sticky.trans ended.sticky⟩

theorem testProbes_of_probed {s : State} {sd : Slot} {xs : List Word} (h : ∀ x ∈ xs, s.Probed sd x) :
    ∃ t, s.testProbes sd xs = .next (true, t) ∧ t.stores = s.stores := by
  induction xs generalizing s with
  | nil => exact ⟨s, rfl, rfl⟩
  | cons x xs ih =>
    obtain ⟨hx, hxs⟩ := List.forall_mem_cons.mp h
    obtain ⟨t, performed, ended, stores, hr⟩ := perform_gethash_of_probed hx
    obtain ⟨u, tested, same⟩ := ih fun y hy => (hxs y hy).congr ended.cfg stores
    have found : t.resp.r ≠ 0 := by simp [hr]
    refine ⟨u, ?_, same.trans stores⟩
    rw [State.testProbes, performed]
    exact (if_neg found).trans tested

theorem hostTest_completes {s : State} {sd : Slot} (hok : s.storesOk) (hsd : s.cfg.slotLegal sd = true)
    {digest : List Byte} (hfits : digest.length ≤ s.cfg.muxMaxBytes) :
    ∃ b t, s.hostTest sd digest = .next (b, t) ∧ t.status >>> 8 = s.status >>> 8 := by
  obtain ⟨m, muxed, cfg, stores, -, ended⟩ := perform_mux s digest
  obtain ⟨b, t, tested, sticky⟩ :=
    testProbes_completes (sd := sd) (storesOk_congr hok cfg stores) (cfg.symm ▸ hsd) m.resp.outs
  exact ⟨b, t, by rw [State.hostTest, muxed]; exact tested, sticky.trans (ended hfits).sticky⟩

/-- TEST of a digest whose bits are set gives true and changes no store. -/
theorem hostTest_of_probed {s : State} {sd : Slot} {digest : List Byte}
    (h : ∀ x ∈ seedsOf s.cfg digest, s.Probed sd x) :
    ∃ t, s.hostTest sd digest = .next (true, t) ∧ t.stores = s.stores := by
  obtain ⟨m, muxed, cfg, stores, outs, -⟩ := perform_mux s digest
  obtain ⟨t, tested, same⟩ := testProbes_of_probed (s := m) (sd := sd) (xs := m.resp.outs)
    fun x hx => (h x (outs ▸ hx)).congr cfg stores
  exact ⟨t, by rw [State.hostTest, muxed]; exact tested, same.trans stores⟩

theorem HostRun.probed {sd : Slot} {h : Nat} {log : List (Command × Response)} {s t : State} {x : Word}
    (run : HostRun (Move.keeps sd) h log s t) (hx : s.Probed sd x) : t.Probed sd x := by
  obtain ⟨size, hbit⟩ := hx
  exact ⟨size, run.hasBit hbit⟩

theorem QuietRun.probed {sd : Slot} {k : Nat} {s t : State} {x : Word} (run : QuietRun sd k s t)
    (hx : s.Probed sd x) : t.Probed sd x := by
  obtain ⟨size, hbit⟩ := hx
  exact ⟨size, run.hasBit hbit⟩

theorem QuietRun.cfg_eq {sd : Slot} {k : Nat} {s t : State} (run : QuietRun sd k s t) : t.cfg = s.cfg := by
  obtain ⟨log, hostRun⟩ := run.hostRun 0
  exact hostRun.cfg_eq

/-- Settles O39: each command on a slot it reaches ends without an error, and so do the commands of ADD and TEST. -/
theorem runtimeCommandsDoNotFail : Obligations.RuntimeCommandsDoNotFail := by
  intro s sd hok hsd
  obtain ⟨st, hst, -⟩ := hok.reach hsd
  have hpos := size_pos_of_holds hok hst
  refine ⟨?_, fun hfits => ⟨_, exec_mux_of_fits hfits, rfl⟩, fun digest hfits => ⟨?_, hostTest_completes hok hsd hfits⟩⟩
  · simp only [List.forall_mem_cons, List.not_mem_nil, false_imp_iff, implies_true, and_true]
    refine ⟨?_, ⟨_, exec_sethash hst hpos, rfl⟩, ⟨_, exec_gethash hst hpos, rfl⟩⟩
    rcases Nat.lt_or_ge s.cmd.a.toNat st.size with hlt | hge
    · exact ⟨_, exec_setbit_of_lt hst hlt, rfl⟩
    · exact ⟨_, exec_setbit_of_ge hst hge, rfl⟩
  · obtain ⟨t, added, -, -, sticky⟩ := hostAdd_completes hok hsd digest
    exact ⟨t, added, sticky hfits⟩

/-- Settles O41: the bits of the seeds are set after ADD and stay set, so TEST finds them. -/
theorem addThenTestIsTrue : Obligations.AddThenTestIsTrue := by
  intro s sd digest hok hsd _
  obtain ⟨t, added, cfg, probed, -⟩ := hostAdd_completes hok hsd digest
  refine ⟨t, added, fun k u run => ?_⟩
  obtain ⟨v, tested, -⟩ := hostTest_of_probed (s := u) (sd := sd) (digest := digest)
    fun x hx => run.probed (probed x (run.cfg_eq.trans cfg ▸ hx))
  exact ⟨v, tested⟩

/-- Settles O44: such a digest has no seed, so the bits of all its seeds are set. -/
theorem shortDigestAddsNothingAndTestsTrue : Obligations.ShortDigestAddsNothingAndTestsTrue := by
  intro s sd digest hshort _
  have probed : ∀ x ∈ seedsOf s.cfg digest, s.Probed sd x := by simp [seedsOf_of_short hshort]
  exact ⟨hostAdd_of_probed probed, hostTest_of_probed probed⟩

/-! ## ADD and TEST among the commands of other hosts (20_memory.md R50, 42_index_mux.md R176) -/

section
variable {sd : Slot} {h : Nat} {log : List (Command × Response)} {s t : State} {digest : List Byte} {x : Word}
  {r : Response}

/-- A MUX in a host's record answered the seeds of its digest. -/
theorem HostRun.mux_entry {test : Move → Bool} (run : HostRun test h log s t) (mem : (muxCommand digest, r) ∈ log) :
    r.outs = seedsOf s.cfg digest ∧ (digest.length ≤ s.cfg.muxMaxBytes → r.err = 0) := by
  obtain ⟨a, u, q, before, after, start, performed, rfl, -⟩ := run.performed mem
  obtain ⟨m, muxed, -, -, outs, ended⟩ := perform_mux (a.countChoice.dropRequest q) digest
  obtain rfl := Host.Outcome.next.inj (performed.symm.trans muxed)
  have cfg : (a.countChoice.dropRequest q).cfg = s.cfg := start.cfg_eq
  rw [cfg] at outs ended
  exact ⟨outs, fun hfits => (ended hfits).err⟩

/-- A SETHASH in a host's record ended without an error and left its bit set to the end of the run. -/
theorem HostRun.sethash_entry (run : HostRun (Move.keeps sd) h log s t) (hok : s.storesOk)
    (hsd : s.cfg.slotLegal sd = true) (mem : (sethashCommand sd x, r) ∈ log) : r.err = 0 ∧ t.Probed sd x := by
  obtain ⟨a, u, q, before, after, start, performed, rfl, finish⟩ := run.performed mem
  obtain ⟨u', performed', ended, probed⟩ := perform_sethash_probed (s := a.countChoice.dropRequest q)
    (start.storesOk hok) (start.cfg_eq.symm ▸ hsd) x
  obtain rfl := Host.Outcome.next.inj (performed.symm.trans performed')
  exact ⟨ended.err, finish.probed probed⟩

/-- A GETHASH in a host's record, of a seed whose bit was set at the start, ended without an error and answered 1. -/
theorem HostRun.gethash_entry (run : HostRun (Move.keeps sd) h log s t) (hx : s.Probed sd x)
    (mem : (gethashCommand sd x, r) ∈ log) : r.err = 0 ∧ r.r = 1 := by
  obtain ⟨a, u, q, before, after, start, performed, rfl, -⟩ := run.performed mem
  obtain ⟨u', performed', ended, -, one⟩ :=
    perform_gethash_of_probed (s := a.countChoice.dropRequest q) (start.probed hx)
  obtain rfl := Host.Outcome.next.inj (performed.symm.trans performed')
  exact ⟨ended.err, one⟩

/-- The commands of an ADD are determined by the build and the digest. -/
theorem commands_of_isAddRecord {test : Move → Bool} (run : HostRun test h log s t)
    (isAdd : isAddRecord sd digest log = true) :
    log.map Prod.fst = muxCommand digest :: (seedsOf s.cfg digest).map (sethashCommand sd) := by
  cases log with
  | nil => cases isAdd
  | cons e rest =>
    obtain ⟨c, r⟩ := e
    obtain ⟨rfl, commands⟩ : c = muxCommand digest ∧ rest.map Prod.fst = r.outs.map (sethashCommand sd) := by
      simpa [isAddRecord] using isAdd
    rw [List.map_cons, commands, (run.mux_entry List.mem_cons_self).1]

/-- After an ADD in a host's record the bits of its seeds are set. -/
theorem probed_of_isAddRecord (run : HostRun (Move.keeps sd) h log s t) (isAdd : isAddRecord sd digest log = true)
    (hok : s.storesOk) (hsd : s.cfg.slotLegal sd = true) (hx : x ∈ seedsOf s.cfg digest) : t.Probed sd x := by
  have mem : sethashCommand sd x ∈ log.map Prod.fst := by
    rw [commands_of_isAddRecord run isAdd]
    exact List.mem_cons_of_mem _ (List.mem_map_of_mem hx)
  obtain ⟨⟨_, r⟩, hr, rfl⟩ := List.mem_map.mp mem
  exact (run.sethash_entry hok hsd hr).2

theorem err_of_isAddRecord (run : HostRun (Move.keeps sd) h log s t) (isAdd : isAddRecord sd digest log = true)
    (hok : s.storesOk) (hsd : s.cfg.slotLegal sd = true) (hfits : digest.length ≤ s.cfg.muxMaxBytes)
    {e : Command × Response} (he : e ∈ log) : e.2.err = 0 := by
  obtain ⟨c, r⟩ := e
  have mem : c ∈ log.map Prod.fst := List.mem_map_of_mem he
  rw [commands_of_isAddRecord run isAdd, List.mem_cons, List.mem_map] at mem
  rcases mem with rfl | ⟨x, -, rfl⟩
  · exact (run.mux_entry he).2 hfits
  · exact (run.sethash_entry hok hsd he).1

end

/-- Where every GETHASH of a seed answered 1 without an error, the probes give true and none has an error. -/
theorem probesAnswer_of_found {sd : Slot} {xs : List Word} {rest : List (Command × Response)} {answer : Bool}
    (h : probesAnswer sd xs rest = some answer)
    (found : ∀ x ∈ xs, ∀ r, (gethashCommand sd x, r) ∈ rest → r.err = 0 ∧ r.r = 1) :
    answer = true ∧ ∀ e ∈ rest, e.2.err = 0 := by
  induction xs generalizing rest with
  | nil =>
    cases rest with
    | nil => exact ⟨(Option.some.inj h).symm, fun e he => absurd he List.not_mem_nil⟩
    | cons e rest => cases h
  | cons x xs ih =>
    cases rest with
    | nil => cases h
    | cons e rest =>
      obtain ⟨c, r⟩ := e
      rw [probesAnswer] at h
      split at h
      case isTrue => cases h
      case isFalse hc =>
        obtain rfl := not_not.mp hc
        obtain ⟨noError, one⟩ := found x List.mem_cons_self r List.mem_cons_self
        rw [if_neg (by simp [one])] at h
        obtain ⟨yes, others⟩ := ih h fun y hy r' hr' =>
          found y (List.mem_cons_of_mem _ hy) r' (List.mem_cons_of_mem _ hr')
        exact ⟨yes, List.forall_mem_cons.mpr ⟨noError, others⟩⟩

/-- A TEST in a host's record, of a digest whose bits were set at the start, gives true, and no command of it has an
error. -/
theorem testRecordAnswer_of_probed {sd : Slot} {h : Nat} {log : List (Command × Response)} {s t : State}
    {digest : List Byte} {answer : Bool} (run : HostRun (Move.keeps sd) h log s t)
    (tested : testRecordAnswer sd digest log = some answer) (hfits : digest.length ≤ s.cfg.muxMaxBytes)
    (probed : ∀ x ∈ seedsOf s.cfg digest, s.Probed sd x) : answer = true ∧ ∀ e ∈ log, e.2.err = 0 := by
  cases log with
  | nil => cases tested
  | cons e rest =>
    obtain ⟨c, r⟩ := e
    rw [testRecordAnswer] at tested
    split at tested
    case isFalse => cases tested
    case isTrue hc =>
      subst hc
      obtain ⟨outs, noError⟩ := run.mux_entry List.mem_cons_self
      rw [outs] at tested
      obtain ⟨yes, others⟩ := probesAnswer_of_found tested fun x hx r' hr' =>
        run.gethash_entry (probed x hx) (List.mem_cons_of_mem _ hr')
      exact ⟨yes, List.forall_mem_cons.mpr ⟨noError hfits, others⟩⟩

/-- Settles O42: the bits that the commands of the ADD set stay set, so each GETHASH of the TEST answers 1. -/
theorem addThenTestIsTrueAcrossHosts : Obligations.AddThenTestIsTrueAcrossHosts := by
  intro s t u v sd digest g h k added tested answer hok hsd hfits adding isAdd quiet testing isTest
  have cfg : u.cfg = s.cfg := quiet.cfg_eq.trans adding.cfg_eq
  have probed : ∀ x ∈ seedsOf u.cfg digest, u.Probed sd x := fun x hx =>
    quiet.probed (probed_of_isAddRecord adding isAdd hok hsd (cfg ▸ hx))
  obtain ⟨yes, noError⟩ := testRecordAnswer_of_probed testing isTest (cfg.symm ▸ hfits) probed
  exact ⟨yes, fun e he => (List.mem_append.mp he).elim (err_of_isAddRecord adding isAdd hok hsd hfits) (noError e)⟩

/-- In a state in which the bits of a digest are set, performing a command of its ADD changes no store. -/
theorem perform_add_command_of_probed {s t : State} {sd : Slot} {digest : List Byte} {c : Command}
    (probed : ∀ x ∈ seedsOf s.cfg digest, s.Probed sd x)
    (hc : c ∈ muxCommand digest :: (seedsOf s.cfg digest).map (sethashCommand sd)) (h : s.perform c = .next t) :
    t.stores = s.stores := by
  rcases List.mem_cons.mp hc with rfl | hc
  · obtain ⟨m, muxed, -, stores, -⟩ := perform_mux s digest
    obtain rfl := Host.Outcome.next.inj (h.symm.trans muxed)
    exact stores
  · obtain ⟨x, hx, rfl⟩ := List.mem_map.mp hc
    obtain ⟨t', performed, stores⟩ := perform_sethash_of_probed (probed x hx)
    obtain rfl := Host.Outcome.next.inj (h.symm.trans performed)
    exact stores

theorem perform_of_openStep {s t : State} {q : Request} (h : OpenStep s (some (.perform q)) t) :
    ∃ u, (s.countChoice.dropRequest q).perform q.cmd = .next u ∧ t = u.respondTo q.host := by
  rcases openStep_cases h with ⟨hm, -⟩ | ⟨q', u, hm, -, performed, rfl⟩ | ⟨e, hm, -⟩
  · cases hm
  · cases hm
    exact ⟨u, performed, rfl⟩
  · cases hm

/-- Settles O43: after the first ADD the bits of the seeds are set, so a command of a further ADD writes nothing new; the
commands of both are those that the build and the digest determine. -/
theorem secondAddChangesNoStore : Obligations.SecondAddChangesNoStore := by
  intro s t sd digest hok hsd
  refine ⟨fun added => ?_, fun u v g k log adding isAdd quiet => ?_⟩
  · obtain ⟨t', added', cfg, probed, -⟩ := hostAdd_completes hok hsd digest
    obtain rfl := Host.Outcome.next.inj (added.symm.trans added')
    exact hostAdd_of_probed (cfg.symm ▸ probed)
  · have cfg : u.cfg = s.cfg := quiet.cfg_eq.trans adding.cfg_eq
    have commands : log.map Prod.fst = muxCommand digest :: (seedsOf u.cfg digest).map (sethashCommand sd) := by
      rw [cfg, commands_of_isAddRecord adding isAdd]
    refine ⟨fun q hq moved => ?_, fun h again run isAgain => ?_⟩
    · obtain ⟨w, performed, rfl⟩ := perform_of_openStep moved
      have probed : ∀ x ∈ seedsOf u.cfg digest, u.Probed sd x := fun x hx =>
        quiet.probed (probed_of_isAddRecord adding isAdd hok hsd (cfg ▸ hx))
      exact (perform_add_command_of_probed (s := u.countChoice.dropRequest q) probed (commands ▸ hq) performed :)
    · rw [commands, commands_of_isAddRecord run isAgain]

end Sys2Proof.Machine
